-- ==== Sys2Proof/Word.lean ====
section
/-! DEFINITION. The word types: a register (64 bits), an instruction word or the low half of a register (32 bits), a byte,
a register number. -/

namespace Sys2Proof

/-- A register slot, the program counter, an address: 64 bits (00_scope.md R6). -/
abbrev Word := BitVec 64

/-- An instruction word, or the low 32 bits of a register (00_scope.md R6, 42_op_imm_32.md R174). -/
abbrev Word32 := BitVec 32

/-- One byte of memory (10_state.md R35). -/
abbrev Byte := BitVec 8

/-- The number of a register slot, 0 to 31 (10_state.md R21). -/
abbrev Reg := Fin 32

end Sys2Proof
end

