-- ==== Sys2Proof/WellFormed.lean ====
section
/-! DEFINITION. Which instruction terms have an encoding: the shift amounts are bounded (41_op_imm.md R160,
42_op_imm_32.md R175); every register number and every twelve-bit immediate is legal (30_encoding.md R110). -/

namespace Sys2Proof

/-- A 64-bit immediate shift amount is 0 to 63, a word-width one 0 to 31; nothing else is checked. -/
def Instr.wellFormed : Instr → Bool
  | .slli _ _ sh | .srli _ _ sh | .srai _ _ sh => decide (sh < 64)
  | .slliw _ _ sh | .srliw _ _ sh | .sraiw _ _ sh => decide (sh < 32)
  | .addi .. | .slti .. | .sltiu .. | .xori .. | .ori .. | .andi .. | .addiw .. => true
  | .add .. | .sub .. | .sll .. | .slt .. | .sltu .. | .xor .. | .srl .. | .sra .. | .or .. | .and .. => true
  | .addw .. | .subw .. | .sllw .. | .srlw .. | .sraw .. => true

end Sys2Proof
end

