-- ==== Sys2Proof/Decode.lean ====
section
/-! DEFINITION. The fields of an instruction word, the five immediate decoders, the opcode map as ONE table of numbers, the
decoder (total; it rejects by name) and, written from the same table, the encoder (30_encoding.md). -/

namespace Sys2Proof

/-! ## Fields (R91) -/

/-- `word[6:0]`. -/
def opcodeOf (w : Word32) : BitVec 7 := w.extractLsb' 0 7
/-- `word[11:7]`. -/
def rdOf (w : Word32) : Reg := (w.extractLsb' 7 5).toFin
/-- `word[14:12]`. -/
def funct3Of (w : Word32) : BitVec 3 := w.extractLsb' 12 3
/-- `word[19:15]`. -/
def rs1Of (w : Word32) : Reg := (w.extractLsb' 15 5).toFin
/-- `word[24:20]`. -/
def rs2Of (w : Word32) : Reg := (w.extractLsb' 20 5).toFin
/-- `word[31:25]`. -/
def funct7Of (w : Word32) : BitVec 7 := w.extractLsb' 25 7
/-- `word[31:20]`, the twelve bits of an I-type immediate (R92, R96). -/
def imm12Of (w : Word32) : BitVec 12 := w.extractLsb' 20 12
/-- `word[31:26]`, the selector of the 64-bit immediate shifts (R103). -/
def sel6Of (w : Word32) : BitVec 6 := w.extractLsb' 26 6
/-- `shamt6 = word[25:20]` (00_scope.md R16). -/
def shamt6Of (w : Word32) : Nat := (w.extractLsb' 20 6).toNat
/-- `shamt5 = word[24:20]` (00_scope.md R16). -/
def shamt5Of (w : Word32) : Nat := (w.extractLsb' 20 5).toNat

/-! ## Immediate decoders (R95 to R100); only `immI` has a consumer (R101) -/

/-- R96: `sext_64(word[31:20])`. -/
def immI (w : Word32) : Word := (imm12Of w).signExtend 64
/-- R97: `sext_64({word[31:25], word[11:7]})`. -/
def immS (w : Word32) : Word := (w.extractLsb' 25 7 ++ w.extractLsb' 7 5).signExtend 64
/-- R98: `sext_64({word[31], word[7], word[30:25], word[11:8], 1'b0})`. -/
def immB (w : Word32) : Word :=
  (w.extractLsb' 31 1 ++ w.extractLsb' 7 1 ++ w.extractLsb' 25 6 ++ w.extractLsb' 8 4 ++ 0#1).signExtend 64
/-- R99: `sext_64({word[31:12], 12'b0})`. -/
def immU (w : Word32) : Word := (w.extractLsb' 12 20 ++ 0#12).signExtend 64
/-- R100: `sext_64({word[31], word[19:12], word[20], word[30:21], 1'b0})`. -/
def immJ (w : Word32) : Word :=
  (w.extractLsb' 31 1 ++ w.extractLsb' 12 8 ++ w.extractLsb' 20 1 ++ w.extractLsb' 21 10 ++ 0#1).signExtend 64

/-! ## The opcode map (R102 to R107) -/

/-- The 28 names of the opcode table. -/
inductive Mnemonic where
  | addi | slti | sltiu | xori | ori | andi | slli | srli | srai
  | addiw | slliw | srliw | sraiw
  | add | sub | sll | slt | sltu | xor | srl | sra | or | and
  | addw | subw | sllw | srlw | sraw
  deriving DecidableEq, Repr

/-- What an encoding asks of the upper bits beside opcode and funct3: nothing, a six-bit selector in `word[31:26]`, or seven bits
in `word[31:25]` (R103 to R106; D7, D8, D22). -/
inductive Upper where
  | free
  | sel6 (v : BitVec 6)
  | sel7 (v : BitVec 7)
  deriving DecidableEq, Repr

/-- The fixed numbers of one row of the opcode table. -/
structure Enc where
  opcode : BitVec 7
  funct3 : BitVec 3
  upper : Upper
  deriving DecidableEq, Repr

/-- The four opcodes `Execute` dispatches on (R102). -/
def opImm : BitVec 7 := 0x13#7
def opImm32 : BitVec 7 := 0x1b#7
def op : BitVec 7 := 0x33#7
def op32 : BitVec 7 := 0x3b#7

/-- THE TABLE (R103 to R106), the one place of these numbers: decoder and encoder both read it. The opcodes and the rows of ADDI
and ADD are the source's, the other funct and selector numbers are what the spec adopts from standard RISC-V (R107, D9, G1;
log 13). -/
def Mnemonic.enc : Mnemonic → Enc
  | .addi => ⟨opImm, 0b000#3, .free⟩
  | .slti => ⟨opImm, 0b010#3, .free⟩
  | .sltiu => ⟨opImm, 0b011#3, .free⟩
  | .xori => ⟨opImm, 0b100#3, .free⟩
  | .ori => ⟨opImm, 0b110#3, .free⟩
  | .andi => ⟨opImm, 0b111#3, .free⟩
  | .slli => ⟨opImm, 0b001#3, .sel6 0b000000#6⟩
  | .srli => ⟨opImm, 0b101#3, .sel6 0b000000#6⟩
  | .srai => ⟨opImm, 0b101#3, .sel6 0b010000#6⟩
  | .addiw => ⟨opImm32, 0b000#3, .free⟩
  | .slliw => ⟨opImm32, 0b001#3, .sel7 0b0000000#7⟩
  | .srliw => ⟨opImm32, 0b101#3, .sel7 0b0000000#7⟩
  | .sraiw => ⟨opImm32, 0b101#3, .sel7 0b0100000#7⟩
  | .add => ⟨op, 0b000#3, .sel7 0b0000000#7⟩
  | .sub => ⟨op, 0b000#3, .sel7 0b0100000#7⟩
  | .sll => ⟨op, 0b001#3, .sel7 0b0000000#7⟩
  | .slt => ⟨op, 0b010#3, .sel7 0b0000000#7⟩
  | .sltu => ⟨op, 0b011#3, .sel7 0b0000000#7⟩
  | .xor => ⟨op, 0b100#3, .sel7 0b0000000#7⟩
  | .srl => ⟨op, 0b101#3, .sel7 0b0000000#7⟩
  | .sra => ⟨op, 0b101#3, .sel7 0b0100000#7⟩
  | .or => ⟨op, 0b110#3, .sel7 0b0000000#7⟩
  | .and => ⟨op, 0b111#3, .sel7 0b0000000#7⟩
  | .addw => ⟨op32, 0b000#3, .sel7 0b0000000#7⟩
  | .subw => ⟨op32, 0b000#3, .sel7 0b0100000#7⟩
  | .sllw => ⟨op32, 0b001#3, .sel7 0b0000000#7⟩
  | .srlw => ⟨op32, 0b101#3, .sel7 0b0000000#7⟩
  | .sraw => ⟨op32, 0b101#3, .sel7 0b0100000#7⟩

/-- The rows in the table's order. -/
def Mnemonic.all : List Mnemonic :=
  [.addi, .slti, .sltiu, .xori, .ori, .andi, .slli, .srli, .srai,
   .addiw, .slliw, .srliw, .sraiw,
   .add, .sub, .sll, .slt, .sltu, .xor, .srl, .sra, .or, .and,
   .addw, .subw, .sllw, .srlw, .sraw]

/-- Whether the upper bits of a word are what a row asks for. -/
def Upper.accepts (u : Upper) (w : Word32) : Bool :=
  match u with
  | .free => true
  | .sel6 v => sel6Of w == v
  | .sel7 v => funct7Of w == v

/-- Whether a word is an encoding of the row: the whole opcode, the whole funct3 and the upper bits compared (R102 to R106). -/
def Enc.accepts (e : Enc) (w : Word32) : Bool :=
  opcodeOf w == e.opcode && funct3Of w == e.funct3 && e.upper.accepts w

/-! ## The decoder -/

/-- Why a word is unimplemented: the cases (a) to (h) of R108. -/
inductive IllegalCase where
  /-- (a) the opcode is none of the four -/
  | opcode
  /-- (b) opcode 0x13, funct3 001, `word[31:26]` not 000000 -/
  | slliSelector
  /-- (c) opcode 0x13, funct3 101, `word[31:26]` neither 000000 nor 010000 -/
  | srliSraiSelector
  /-- (d) opcode 0x1b, a funct3 that names nothing -/
  | opImm32Funct3
  /-- (e) opcode 0x1b, funct3 001, `word[31:25]` not 0000000 -/
  | slliwSelector
  /-- (f) opcode 0x1b, funct3 101, `word[31:25]` neither 0000000 nor 0100000 -/
  | srliwSraiwSelector
  /-- (g) opcode 0x33, a pair (funct3, funct7) that names nothing -/
  | opPair
  /-- (h) opcode 0x3b, a pair (funct3, funct7) that names nothing -/
  | op32Pair
  deriving DecidableEq, Repr

/-- The case of R108 that an unimplemented word falls under. -/
def illegalCase (w : Word32) : IllegalCase :=
  if opcodeOf w = opImm then
    if funct3Of w = 0b001#3 then .slliSelector else .srliSraiSelector
  else if opcodeOf w = opImm32 then
    if funct3Of w = 0b001#3 then .slliwSelector
    else if funct3Of w = 0b101#3 then .srliwSraiwSelector
    else .opImm32Funct3
  else if opcodeOf w = op then .opPair
  else if opcodeOf w = op32 then .op32Pair
  else .opcode

/-- What decoding gives: one of the 28 instructions, or "unimplemented" with the word (R108, 45_not_implemented_families.md
R219). -/
inductive Decoded where
  | instr (i : Instr)
  | unimplemented (word : Word32) (why : IllegalCase)
  deriving DecidableEq, Repr

/-- The instruction of a row, its operands read from the word's fields (R92, R135). -/
def Mnemonic.build (m : Mnemonic) (w : Word32) : Instr :=
  match m with
  | .addi => .addi (rdOf w) (rs1Of w) (imm12Of w)
  | .slti => .slti (rdOf w) (rs1Of w) (imm12Of w)
  | .sltiu => .sltiu (rdOf w) (rs1Of w) (imm12Of w)
  | .xori => .xori (rdOf w) (rs1Of w) (imm12Of w)
  | .ori => .ori (rdOf w) (rs1Of w) (imm12Of w)
  | .andi => .andi (rdOf w) (rs1Of w) (imm12Of w)
  | .slli => .slli (rdOf w) (rs1Of w) (shamt6Of w)
  | .srli => .srli (rdOf w) (rs1Of w) (shamt6Of w)
  | .srai => .srai (rdOf w) (rs1Of w) (shamt6Of w)
  | .addiw => .addiw (rdOf w) (rs1Of w) (imm12Of w)
  | .slliw => .slliw (rdOf w) (rs1Of w) (shamt5Of w)
  | .srliw => .srliw (rdOf w) (rs1Of w) (shamt5Of w)
  | .sraiw => .sraiw (rdOf w) (rs1Of w) (shamt5Of w)
  | .add => .add (rdOf w) (rs1Of w) (rs2Of w)
  | .sub => .sub (rdOf w) (rs1Of w) (rs2Of w)
  | .sll => .sll (rdOf w) (rs1Of w) (rs2Of w)
  | .slt => .slt (rdOf w) (rs1Of w) (rs2Of w)
  | .sltu => .sltu (rdOf w) (rs1Of w) (rs2Of w)
  | .xor => .xor (rdOf w) (rs1Of w) (rs2Of w)
  | .srl => .srl (rdOf w) (rs1Of w) (rs2Of w)
  | .sra => .sra (rdOf w) (rs1Of w) (rs2Of w)
  | .or => .or (rdOf w) (rs1Of w) (rs2Of w)
  | .and => .and (rdOf w) (rs1Of w) (rs2Of w)
  | .addw => .addw (rdOf w) (rs1Of w) (rs2Of w)
  | .subw => .subw (rdOf w) (rs1Of w) (rs2Of w)
  | .sllw => .sllw (rdOf w) (rs1Of w) (rs2Of w)
  | .srlw => .srlw (rdOf w) (rs1Of w) (rs2Of w)
  | .sraw => .sraw (rdOf w) (rs1Of w) (rs2Of w)

/-- The row an instruction belongs to. -/
def Instr.mnemonic : Instr → Mnemonic
  | .addi .. => .addi
  | .slti .. => .slti
  | .sltiu .. => .sltiu
  | .xori .. => .xori
  | .ori .. => .ori
  | .andi .. => .andi
  | .slli .. => .slli
  | .srli .. => .srli
  | .srai .. => .srai
  | .addiw .. => .addiw
  | .slliw .. => .slliw
  | .srliw .. => .srliw
  | .sraiw .. => .sraiw
  | .add .. => .add
  | .sub .. => .sub
  | .sll .. => .sll
  | .slt .. => .slt
  | .sltu .. => .sltu
  | .xor .. => .xor
  | .srl .. => .srl
  | .sra .. => .sra
  | .or .. => .or
  | .and .. => .and
  | .addw .. => .addw
  | .subw .. => .subw
  | .sllw .. => .sllw
  | .srlw .. => .srlw
  | .sraw .. => .sraw

/-- The row of the table that a word matches, if any (at most one does). -/
def mnemonicOf (w : Word32) : Option Mnemonic := Mnemonic.all.find? fun m => m.enc.accepts w

/-- The decoder, total over all 2^32 words (R108). -/
def decodeWord (w : Word32) : Decoded :=
  match mnemonicOf w with
  | some m => .instr (m.build w)
  | none => .unimplemented w (illegalCase w)

/-- The word whose bytes lie at rising addresses in this order: little-endian (20_memory.md R54). -/
def wordOfBytes (b0 b1 b2 b3 : Byte) : Word32 := b3 ++ b2 ++ b1 ++ b0

/-- The four bytes of a word, lowest address first (20_memory.md R54). -/
def bytesOfWord (w : Word32) : List Byte :=
  [w.extractLsb' 0 8, w.extractLsb' 8 8, w.extractLsb' 16 8, w.extractLsb' 24 8]

/-- What decoding from a list of bytes gives: the decoded word and the rest, or not enough bytes (R90: one length only). -/
inductive DecodedBytes where
  | decoded (d : Decoded) (rest : List Byte)
  | tooShort
  deriving DecidableEq, Repr

/-- The decoder on any bytes. -/
def decodeBytes : List Byte → DecodedBytes
  | b0 :: b1 :: b2 :: b3 :: rest => .decoded (decodeWord (wordOfBytes b0 b1 b2 b3)) rest
  | _ => .tooShort

/-! ## The encoder (R92, R93) -/

/-- The five bits of a register number. -/
def regBits (r : Reg) : BitVec 5 := BitVec.ofFin r

/-- The six selector bits of a row (zero where it has none). -/
def Enc.sel6 (e : Enc) : BitVec 6 :=
  match e.upper with
  | .sel6 v => v
  | .free | .sel7 _ => 0#6

/-- The seven upper bits of a row (zero where it has none). -/
def Enc.sel7 (e : Enc) : BitVec 7 :=
  match e.upper with
  | .sel7 v => v
  | .free | .sel6 _ => 0#7

/-- Format I: `imm[11:0]`, `rs1`, `funct3`, `rd`, `opcode`. -/
def Enc.wordI (e : Enc) (rd rs1 : Reg) (imm : BitVec 12) : Word32 :=
  imm ++ regBits rs1 ++ e.funct3 ++ regBits rd ++ e.opcode

/-- Format I-shift64: selector, `shamt[5:0]`, `rs1`, `funct3`, `rd`, `opcode`. -/
def Enc.wordSh64 (e : Enc) (rd rs1 : Reg) (shamt : Nat) : Word32 :=
  e.wordI rd rs1 (e.sel6 ++ BitVec.ofNat 6 shamt)

/-- Format I-shift32: selector, `shamt[4:0]`, `rs1`, `funct3`, `rd`, `opcode`. -/
def Enc.wordSh32 (e : Enc) (rd rs1 : Reg) (shamt : Nat) : Word32 :=
  e.wordI rd rs1 (e.sel7 ++ BitVec.ofNat 5 shamt)

/-- Format R: `funct7`, `rs2`, `rs1`, `funct3`, `rd`, `opcode`. -/
def Enc.wordR (e : Enc) (rd rs1 rs2 : Reg) : Word32 :=
  e.wordI rd rs1 (e.sel7 ++ regBits rs2)

/-- The word of a well-formed instruction. -/
def encode : Instr → Word32
  | .addi rd rs1 imm => Mnemonic.addi.enc.wordI rd rs1 imm
  | .slti rd rs1 imm => Mnemonic.slti.enc.wordI rd rs1 imm
  | .sltiu rd rs1 imm => Mnemonic.sltiu.enc.wordI rd rs1 imm
  | .xori rd rs1 imm => Mnemonic.xori.enc.wordI rd rs1 imm
  | .ori rd rs1 imm => Mnemonic.ori.enc.wordI rd rs1 imm
  | .andi rd rs1 imm => Mnemonic.andi.enc.wordI rd rs1 imm
  | .slli rd rs1 sh => Mnemonic.slli.enc.wordSh64 rd rs1 sh
  | .srli rd rs1 sh => Mnemonic.srli.enc.wordSh64 rd rs1 sh
  | .srai rd rs1 sh => Mnemonic.srai.enc.wordSh64 rd rs1 sh
  | .addiw rd rs1 imm => Mnemonic.addiw.enc.wordI rd rs1 imm
  | .slliw rd rs1 sh => Mnemonic.slliw.enc.wordSh32 rd rs1 sh
  | .srliw rd rs1 sh => Mnemonic.srliw.enc.wordSh32 rd rs1 sh
  | .sraiw rd rs1 sh => Mnemonic.sraiw.enc.wordSh32 rd rs1 sh
  | .add rd rs1 rs2 => Mnemonic.add.enc.wordR rd rs1 rs2
  | .sub rd rs1 rs2 => Mnemonic.sub.enc.wordR rd rs1 rs2
  | .sll rd rs1 rs2 => Mnemonic.sll.enc.wordR rd rs1 rs2
  | .slt rd rs1 rs2 => Mnemonic.slt.enc.wordR rd rs1 rs2
  | .sltu rd rs1 rs2 => Mnemonic.sltu.enc.wordR rd rs1 rs2
  | .xor rd rs1 rs2 => Mnemonic.xor.enc.wordR rd rs1 rs2
  | .srl rd rs1 rs2 => Mnemonic.srl.enc.wordR rd rs1 rs2
  | .sra rd rs1 rs2 => Mnemonic.sra.enc.wordR rd rs1 rs2
  | .or rd rs1 rs2 => Mnemonic.or.enc.wordR rd rs1 rs2
  | .and rd rs1 rs2 => Mnemonic.and.enc.wordR rd rs1 rs2
  | .addw rd rs1 rs2 => Mnemonic.addw.enc.wordR rd rs1 rs2
  | .subw rd rs1 rs2 => Mnemonic.subw.enc.wordR rd rs1 rs2
  | .sllw rd rs1 rs2 => Mnemonic.sllw.enc.wordR rd rs1 rs2
  | .srlw rd rs1 rs2 => Mnemonic.srlw.enc.wordR rd rs1 rs2
  | .sraw rd rs1 rs2 => Mnemonic.sraw.enc.wordR rd rs1 rs2

/-- The four bytes of a well-formed instruction, lowest address first. -/
def encodeBytes (i : Instr) : List Byte := bytesOfWord (encode i)

/-- The instruction the decoder reads from a table word of `nbits` bits (the bits above them zero), laid out little-endian. -/
def decodeTableWord (nbits w : Nat) : Option Instr :=
  match decodeBytes (bytesOfWord (BitVec.ofNat 32 (w % 2 ^ nbits))) with
  | .decoded (.instr i) _ => some i
  | .decoded (.unimplemented _ _) _ => none
  | .tooShort => none

end Sys2Proof
end

