-- ==== Sys2Proof/Config.lean ====
section
/-! DEFINITION. What is fixed for one machine and one run (00_scope.md R7, R8; 92_eei_decisions.md, table of parameters), the
sentinel, and the free value of a byte of memory that nobody supplied. -/

namespace Sys2Proof

/-- `ILLEGAL_MODE` (R8, D14): what the hart does on an unimplemented instruction (60_exceptions.md R236, R237). -/
inductive IllegalMode where
  | strict
  | recoverable
  deriving DecidableEq, Repr

/-- The parameters of a machine and of a run. `base` and `capacity` are the memory window (R7, with its defaults);
`illegalMode` is `ILLEGAL_MODE` (R8: no default in the spec; `strict`, DESIGN CHOICE, log 1); `pcStep` is `PC_STEP`, which the
driver adds to `pc` after a round of a fetch loop (R141; default 0, the core alone, log 2); `goOn` is the driver's own choice of
R141, whether it goes on after an `Execute` that did not return `OK` (DESIGN CHOICE `false`, log 3). -/
structure Config where
  base : Word := 0x8000_0000
  capacity : Nat := 1048576
  illegalMode : IllegalMode := .strict
  pcStep : Nat := 0
  goOn : Bool := false
  deriving DecidableEq, Repr

/-- The constraint on the window (R7, D11): it ends inside the 64-bit address space. -/
abbrev Config.Valid (c : Config) : Prop := c.base.toNat + c.capacity ≤ 2 ^ 64

/-- `SENTINEL`, what an invalid load returns (R8, 20_memory.md R56). -/
def sentinel : Word := BitVec.allOnes 64

/-- FREE VALUE (70_reset_and_hazards.md R263, D13, U1; log 4). `Config.memInit g k` is the byte at offset `k` of the `g`-th
memory image where the driver neither supplied nor stored it: an arbitrary byte, fixed for that image, about which nothing can be
proved. It has no body. -/
opaque Config.memInit : Nat → Nat → Byte

end Sys2Proof
end

