-- ==== Sys2Proof/Machine/State.lean ====
section
/-! DEFINITION. The state of the machine as plain data: everything 10_state.md R20 lists, the configuration (log 1), and the
model's own fields (log 5, 6, 7); the reasons a step can stop; the state right after reset. -/

namespace Sys2Proof.Machine

/-- The memory image: the bytes that somebody supplied, as (address, byte) pairs at strictly rising addresses. An address that is
not listed holds no value here; what reading it gives is `State.readByte`'s matter (log 4). -/
abbrev Memory := List Host.Cell

/-- What `Execute` returns to the driver (40_fetch_decode_dispatch.md R139). -/
inductive Status where
  /-- an implemented instruction was executed -/
  | ok
  /-- `IllegalInstruction(word)`: the diagnostic is read off the word (60_exceptions.md R234) -/
  | illegalInstruction (word : Word32)
  /-- the hart was not ready (10_state.md R32) -/
  | invalidHandle
  deriving DecidableEq, Repr

/-- Why the machine stops. -/
inductive Fault where
  /-- `Fetch` or `Execute` on a halted hart: it has no step (60_exceptions.md R236, U7), a stuck state. Raised by `fetch` and
  `execute`, so by `step`. It is the spec's own outcome; safe. -/
  | halted
  deriving DecidableEq, Repr

/-- Why the model gives no meaning. -/
inductive Refusal where
  /-- An instruction that has no meaning yet, refused by an arm of `exec` (none is left). Safe. -/
  | notModelled (mnemonic : String)
  /-- A `deinit` of a block that is not initialised, so at least one `deinit` more than the `init`s: 70_reset_and_hazards.md R273
  (b) and 93_implementation_defined.md U4 put it outside the defined behaviour ("a model offers no such schedule"). Raised by
  `drive`, never by `step`. Safe (log 11). -/
  | deinitTwice
  deriving DecidableEq, Repr

structure State where
  /-- `x[0..31]` (R21); slot 0 is hardwired in `State.readReg` and `State.writeReg` -/
  regs : Vector Word 32
  /-- the program counter (R25) -/
  pc : Word
  /-- the sticky access-fault flag (R28, R29) -/
  fault : Bool
  /-- the hart has stopped for good (R31) -/
  halted : Bool
  /-- the hart is initialised and its bus bound (R32) -/
  ready : Bool
  /-- the memory image (R35) -/
  mem : Memory
  /-- the model's own: the Bus holds a reference to the Memory (70_reset_and_hazards.md R264) -/
  busBound : Bool
  /-- the model's own: the image exists, between `memory.init` and `memory.deinit` (R263, R266) -/
  memLive : Bool
  /-- the model's own: how many times `memory.init` has run, the index of the free bytes (log 7) -/
  image : Nat
  /-- the model's own: what the latest `Execute` returned; none before the first one after reset (log 5) -/
  status : Option Status
  /-- the configuration, which nothing changes (log 1) -/
  cfg : Config
  deriving DecidableEq, Repr

/-- The machine after a successful boot (10_state.md R37, 70_reset_and_hazards.md R265), with the default configuration and
nothing supplied to memory. -/
def State.reset : State where
  regs := (Vector.replicate 32 (0 : Word)).set 2 0x8010_0000
  pc := 0x8000_0000
  fault := false
  halted := false
  ready := true
  mem := []
  busBound := true
  memLive := true
  image := 0
  status := none
  cfg := {}

end Sys2Proof.Machine
end

