-- ==== Sys2Proof/Machine/Flags.lean ====
section
/-! DEFINITION. Flags. The hart has no condition codes (10_state.md R30): a comparison's result is a 64-bit 0 or 1. Its only
flags are `fault`, `halted`, `ready` (R33); here are the operations that set them and the status an `Execute` returns. -/

namespace Sys2Proof.Machine

/-- `bool(c)` of 00_scope.md R12. -/
def boolWord (c : Bool) : Word := if c then 1 else 0

/-- `fault <- 1` (10_state.md R28; 20_memory.md R71). -/
def State.setFault (s : State) : State := { s with fault := true }

/-- `halted <- 1` (10_state.md R31). -/
def State.setHalted (s : State) : State := { s with halted := true }

/-- The status an `Execute` returns (40_fetch_decode_dispatch.md R139). -/
def State.setStatus (s : State) (r : Status) : State := { s with status := some r }

/-- Whether the latest `Execute` returned `OK`. -/
def State.succeeded (s : State) : Bool :=
  match s.status with
  | some .ok => true
  | some (.illegalInstruction _) => false
  | some .invalidHandle => false
  | none => false

/-- The diagnostic of an illegal instruction: opcode, funct3, funct7 of its word (60_exceptions.md R234, D15). -/
def Status.diagnostic : Status → Option (BitVec 7 × BitVec 3 × BitVec 7)
  | .illegalInstruction w => some (w.extractLsb' 0 7, w.extractLsb' 12 3, w.extractLsb' 25 7)
  | .ok => none
  | .invalidHandle => none

end Sys2Proof.Machine
end

