-- ==== Sys2Proof/Machine/Operands.lean ====
section
/-! DEFINITION. The operand forms: the sign-extended immediate, the low word of a register and the sign-extended word result, the
shift amount held in a register. (Register slots are read by `State.readReg`, Machine/Ops.lean; an immediate shift amount is the
number in the instruction.) -/

namespace Sys2Proof.Machine

/-- `immI(word)` from the twelve immediate bits (30_encoding.md R96). -/
def sextImm (imm : BitVec 12) : Word := imm.signExtend 64

/-- `v[31:0]`, the operand of a word-width instruction (42_op_imm_32.md R174). -/
def lowWord (v : Word) : Word32 := v.extractLsb' 0 32

/-- `sext_64(r)`, the result of a word-width instruction (42_op_imm_32.md R174). -/
def sextWord (r : Word32) : Word := r.signExtend 64

/-- `v[5:0]`, the shift amount a register holds for a 64-bit shift (43_op.md R191). -/
def shamt6 (v : Word) : Nat := (v.extractLsb' 0 6).toNat

/-- `v[4:0]`, the shift amount a register holds for a word-width shift (44_op_32.md R205). -/
def shamt5 (v : Word) : Nat := (v.extractLsb' 0 5).toNat

end Sys2Proof.Machine
end

