-- ==== Sys2Proof/Machine/Ops.lean ====
section
/-! DEFINITION. The named operations over registers and memory, raising `IllegalInstruction`, completing an instruction, and the
reset of the hart. -/

namespace Sys2Proof.Machine

/-! ## Registers (10_state.md R21, R22) -/

/-- `x[r]`: slot 0 reads as 0 in every state. -/
def State.readReg (s : State) (r : Reg) : Word := if r = 0 then 0 else s.regs[r.val]

/-- `x[r] <- v`: a write to slot 0 is discarded. -/
def State.writeReg (s : State) (r : Reg) (v : Word) : State :=
  if r = 0 then s else { s with regs := s.regs.set r.val v }

/-- The end of an instruction that was executed: its one register written, the status `OK`, nothing else
(40_fetch_decode_dispatch.md R134 step 4, R138). -/
def complete (rd : Reg) (v : Word) (s : State) : Host.Outcome State Fault Refusal :=
  .next ((s.writeReg rd v).setStatus .ok)

/-! ## The memory image -/

/-- The canonical form: strictly rising addresses. No entry can equal what an unlisted address holds, which is no value
(log 4). -/
abbrev Memory.wf (m : Memory) : Prop := m.Pairwise fun x y => x.1 < y.1

/-- The byte listed at an address, if one is. -/
def Memory.lookup : Memory → Nat → Option Byte
  | [], _ => none
  | (k, b) :: m, a => if a = k then some b else Memory.lookup m a

/-- Put a byte at an address, keeping the canonical form. -/
def Memory.insert : Memory → Nat → Byte → Memory
  | [], a, v => [(a, v)]
  | (k, b) :: m, a, v =>
    if a < k then (a, v) :: (k, b) :: m
    else if a = k then (k, v) :: m
    else (k, b) :: Memory.insert m a v

/-- The low `n` bytes of `v` at `a`, `a + 1`, ...: little-endian (20_memory.md R54, R58). -/
def Memory.putLE (m : Memory) (a v : Nat) : Nat → Memory
  | 0 => m
  | n + 1 => Memory.putLE (Memory.insert m a (BitVec.ofNat 8 v)) (a + 1) (v / 256) n

/-- A caller's buffer, its first byte at `a` (70_reset_and_hazards.md R263). -/
def Memory.ofBytes : Nat → List Byte → Memory
  | _, [] => []
  | a, b :: bs => (a, b) :: Memory.ofBytes (a + 1) bs

/-- The byte at an address of the window: what was supplied, else the free value of that offset of this image (R35, R263). -/
def State.readByte (s : State) (a : Nat) : Byte :=
  match Memory.lookup s.mem a with
  | some b => b
  | none => Config.memInit s.image (a - s.cfg.base.toNat)

/-- `n` bytes from `a`, little-endian, as a number (20_memory.md R54, R55). DESIGN CHOICE between two places of the spec: R61's
example gives `0x5566` for the two bytes at `BASE + 1` of `0x1122_3344_5566_7788`, which R54, R55 and vector M4 make `0x6677`;
the model follows the rules and the vector (log 21). -/
def State.readLE (s : State) (a : Nat) : Nat → Nat
  | 0 => 0
  | n + 1 => (s.readByte a).toNat + 256 * s.readLE (a + 1) n

/-! ## The access primitives (20_memory.md) -/

/-- R53: whether `(addr, n)` is valid: one of the four widths, and all its bytes in the window, the sum in unbounded integers. -/
def Config.accessOk (c : Config) (addr : Word) (n : Nat) : Bool :=
  (n == 1 || n == 2 || n == 4 || n == 8) &&
    decide (c.base.toNat ≤ addr.toNat) && decide (addr.toNat + n ≤ c.base.toNat + c.capacity)

/-- `MemRead(addr, n)`: R55 when valid; R56 and R57 (fault flag and sentinel) when not. -/
def State.memRead (s : State) (addr : Word) (n : Nat) : Word × State :=
  if Config.accessOk s.cfg addr n then (BitVec.ofNat 64 (s.readLE addr.toNat n), s) else (sentinel, s.setFault)

/-- What a store answers (R58, R59). -/
inductive StoreAnswer where
  | ok
  | error
  deriving DecidableEq, Repr

/-- `MemWrite(addr, n, v)`: R58 when valid; R59 (`error`, nothing changed, no flag) when not. -/
def State.memWrite (s : State) (addr : Word) (n : Nat) (v : Word) : StoreAnswer × State :=
  if Config.accessOk s.cfg addr n then (.ok, { s with mem := Memory.putLE s.mem addr.toNat v.toNat n }) else (.error, s)

/-! ## The one exception (60_exceptions.md R234 to R237)

There is no trap entry (R242): nothing is saved, no mode changes, `pc` stays. There is no return from it either (R243): in
recoverable mode "returning" is the driver's next call, in strict mode only reset leaves the halt. -/

/-- `raise IllegalInstruction(word)`: no register, `pc`, `fault` or memory is touched (R235). Strict mode halts the hart (R236),
recoverable mode does not (R237); in both the driver sees the word. -/
def State.raiseIllegal (s : State) (w : Word32) : State :=
  match s.cfg.illegalMode with
  | .strict => s.setHalted.setStatus (.illegalInstruction w)
  | .recoverable => s.setStatus (.illegalInstruction w)

/-! ## Reset -/

/-- `hart.init(bus)` with a bound bus (70_reset_and_hazards.md R261, R267): all registers zero but `x[2] = BASE + CAPACITY`,
`pc = BASE`, `fault` and `halted` cleared, `ready` set; memory is not touched. -/
def State.hartInit (s : State) : State :=
  { s with
    regs := (Vector.replicate 32 (0 : Word)).set 2 (BitVec.ofNat 64 (s.cfg.base.toNat + s.cfg.capacity))
    pc := s.cfg.base
    fault := false
    halted := false
    ready := true
    status := none }

end Sys2Proof.Machine
end

