-- ==== Sys2Proof/Machine/Op.lean ====
section
/-! DEFINITION. The OP family, opcode 0x33 (43_op.md). -/

namespace Sys2Proof.Machine

/-- R180: `x[rd] <- x[rs1] + x[rs2]`, modulo 2^64. -/
def execAdd (rd rs1 rs2 : Reg) (s : State) : Host.Outcome State Fault Refusal :=
  complete rd (s.readReg rs1 + s.readReg rs2) s

/-- R181: `x[rd] <- x[rs1] - x[rs2]`, modulo 2^64. -/
def execSub (rd rs1 rs2 : Reg) (s : State) : Host.Outcome State Fault Refusal :=
  complete rd (s.readReg rs1 - s.readReg rs2) s

/-- R182: `x[rd] <- x[rs1] << x[rs2][5:0]`. -/
def execSll (rd rs1 rs2 : Reg) (s : State) : Host.Outcome State Fault Refusal :=
  complete rd (s.readReg rs1 <<< shamt6 (s.readReg rs2)) s

/-- R183: `x[rd] <- bool(x[rs1] <s x[rs2])`. -/
def execSlt (rd rs1 rs2 : Reg) (s : State) : Host.Outcome State Fault Refusal :=
  complete rd (boolWord ((s.readReg rs1).slt (s.readReg rs2))) s

/-- R184: `x[rd] <- bool(x[rs1] <u x[rs2])`. -/
def execSltu (rd rs1 rs2 : Reg) (s : State) : Host.Outcome State Fault Refusal :=
  complete rd (boolWord ((s.readReg rs1).ult (s.readReg rs2))) s

/-- R185: `x[rd] <- x[rs1] ^ x[rs2]`. -/
def execXor (rd rs1 rs2 : Reg) (s : State) : Host.Outcome State Fault Refusal :=
  complete rd (s.readReg rs1 ^^^ s.readReg rs2) s

/-- R186: `x[rd] <- x[rs1] >>u x[rs2][5:0]`. -/
def execSrl (rd rs1 rs2 : Reg) (s : State) : Host.Outcome State Fault Refusal :=
  complete rd (s.readReg rs1 >>> shamt6 (s.readReg rs2)) s

/-- R187: `x[rd] <- x[rs1] >>s x[rs2][5:0]`. -/
def execSra (rd rs1 rs2 : Reg) (s : State) : Host.Outcome State Fault Refusal :=
  complete rd ((s.readReg rs1).sshiftRight (shamt6 (s.readReg rs2))) s

/-- R188: `x[rd] <- x[rs1] | x[rs2]`. -/
def execOr (rd rs1 rs2 : Reg) (s : State) : Host.Outcome State Fault Refusal :=
  complete rd (s.readReg rs1 ||| s.readReg rs2) s

/-- R189: `x[rd] <- x[rs1] & x[rs2]`. -/
def execAnd (rd rs1 rs2 : Reg) (s : State) : Host.Outcome State Fault Refusal :=
  complete rd (s.readReg rs1 &&& s.readReg rs2) s

end Sys2Proof.Machine
end

