-- ==== Sys2Proof/Machine/Op32.lean ====
section
/-! DEFINITION. The OP-32 family, opcode 0x3b (44_op_32.md): each works on the low 32 bits and sign-extends its 32-bit result (R205,
R174). -/

namespace Sys2Proof.Machine

/-- R200: the 32-bit sum of the low words, sign-extended. -/
def execAddw (rd rs1 rs2 : Reg) (s : State) : Host.Outcome State Fault Refusal :=
  complete rd (sextWord (lowWord (s.readReg rs1) + lowWord (s.readReg rs2))) s

/-- R201: the 32-bit difference of the low words, sign-extended. -/
def execSubw (rd rs1 rs2 : Reg) (s : State) : Host.Outcome State Fault Refusal :=
  complete rd (sextWord (lowWord (s.readReg rs1) - lowWord (s.readReg rs2))) s

/-- R202: `x[rs1][31:0] << x[rs2][4:0]` in 32 bits, sign-extended. -/
def execSllw (rd rs1 rs2 : Reg) (s : State) : Host.Outcome State Fault Refusal :=
  complete rd (sextWord (lowWord (s.readReg rs1) <<< shamt5 (s.readReg rs2))) s

/-- R203: `x[rs1][31:0] >>u x[rs2][4:0]` in 32 bits, sign-extended. -/
def execSrlw (rd rs1 rs2 : Reg) (s : State) : Host.Outcome State Fault Refusal :=
  complete rd (sextWord (lowWord (s.readReg rs1) >>> shamt5 (s.readReg rs2))) s

/-- R204: `x[rs1][31:0] >>s x[rs2][4:0]` in 32 bits, sign-extended. -/
def execSraw (rd rs1 rs2 : Reg) (s : State) : Host.Outcome State Fault Refusal :=
  complete rd (sextWord ((lowWord (s.readReg rs1)).sshiftRight (shamt5 (s.readReg rs2)))) s

end Sys2Proof.Machine
end

