-- ==== Sys2Proof/Machine/OpImm.lean ====
section
/-! DEFINITION. The OP-IMM family, opcode 0x13 (41_op_imm.md). -/

namespace Sys2Proof.Machine

/-- R150: `x[rd] <- x[rs1] + immI(word)`, modulo 2^64. -/
def execAddi (rd rs1 : Reg) (imm : BitVec 12) (s : State) : Host.Outcome State Fault Refusal :=
  complete rd (s.readReg rs1 + sextImm imm) s

/-- R151: `x[rd] <- bool(x[rs1] <s immI(word))`. -/
def execSlti (rd rs1 : Reg) (imm : BitVec 12) (s : State) : Host.Outcome State Fault Refusal :=
  complete rd (boolWord ((s.readReg rs1).slt (sextImm imm))) s

/-- R152: `x[rd] <- bool(x[rs1] <u immI(word))`: sign-extended first, then compared unsigned (D26). -/
def execSltiu (rd rs1 : Reg) (imm : BitVec 12) (s : State) : Host.Outcome State Fault Refusal :=
  complete rd (boolWord ((s.readReg rs1).ult (sextImm imm))) s

/-- R153: `x[rd] <- x[rs1] ^ immI(word)`. -/
def execXori (rd rs1 : Reg) (imm : BitVec 12) (s : State) : Host.Outcome State Fault Refusal :=
  complete rd (s.readReg rs1 ^^^ sextImm imm) s

/-- R154: `x[rd] <- x[rs1] | immI(word)`. -/
def execOri (rd rs1 : Reg) (imm : BitVec 12) (s : State) : Host.Outcome State Fault Refusal :=
  complete rd (s.readReg rs1 ||| sextImm imm) s

/-- R155: `x[rd] <- x[rs1] & immI(word)`. -/
def execAndi (rd rs1 : Reg) (imm : BitVec 12) (s : State) : Host.Outcome State Fault Refusal :=
  complete rd (s.readReg rs1 &&& sextImm imm) s

/-- R156: `x[rd] <- x[rs1] << shamt6`. -/
def execSlli (rd rs1 : Reg) (shamt : Nat) (s : State) : Host.Outcome State Fault Refusal :=
  complete rd (s.readReg rs1 <<< shamt) s

/-- R157: `x[rd] <- x[rs1] >>u shamt6`. -/
def execSrli (rd rs1 : Reg) (shamt : Nat) (s : State) : Host.Outcome State Fault Refusal :=
  complete rd (s.readReg rs1 >>> shamt) s

/-- R158: `x[rd] <- x[rs1] >>s shamt6`. -/
def execSrai (rd rs1 : Reg) (shamt : Nat) (s : State) : Host.Outcome State Fault Refusal :=
  complete rd ((s.readReg rs1).sshiftRight shamt) s

end Sys2Proof.Machine
end

