-- ==== Sys2Proof/Machine/OpImm32.lean ====
section
/-! DEFINITION. The OP-IMM-32 family, opcode 0x1b (42_op_imm_32.md): each works on the low 32 bits and sign-extends its 32-bit
result (R174). -/

namespace Sys2Proof.Machine

/-- R170: the 32-bit sum of `x[rs1][31:0]` and `immI(word)[31:0]`, sign-extended. -/
def execAddiw (rd rs1 : Reg) (imm : BitVec 12) (s : State) : Host.Outcome State Fault Refusal :=
  complete rd (sextWord (lowWord (s.readReg rs1) + lowWord (sextImm imm))) s

/-- R171: `x[rs1][31:0] << shamt5` in 32 bits, sign-extended. -/
def execSlliw (rd rs1 : Reg) (shamt : Nat) (s : State) : Host.Outcome State Fault Refusal :=
  complete rd (sextWord (lowWord (s.readReg rs1) <<< shamt)) s

/-- R172: `x[rs1][31:0] >>u shamt5` in 32 bits, sign-extended. -/
def execSrliw (rd rs1 : Reg) (shamt : Nat) (s : State) : Host.Outcome State Fault Refusal :=
  complete rd (sextWord (lowWord (s.readReg rs1) >>> shamt)) s

/-- R173: `x[rs1][31:0] >>s shamt5` in 32 bits, sign-extended. -/
def execSraiw (rd rs1 : Reg) (shamt : Nat) (s : State) : Host.Outcome State Fault Refusal :=
  complete rd (sextWord ((lowWord (s.readReg rs1)).sshiftRight shamt)) s

end Sys2Proof.Machine
end

