-- ==== Sys2Proof/Machine/Execute.lean ====
section
/-! DEFINITION. The two operations of the hart (40_fetch_decode_dispatch.md): `Fetch` and `Execute`, with their checks of `ready`
and `halted` (60_exceptions.md R241: `ready` first). -/

namespace Sys2Proof.Machine

/-- The word a faulting or not-ready `Fetch` returns: the low 32 bits of the sentinel (R131, R132). -/
def sentinelWord : Word32 := sentinel.extractLsb' 0 32

/-- `Fetch()`: R132 when the hart is not ready; no step when it is halted (60_exceptions.md R236); else the 32-bit load at `pc`
(R130, R131). The word goes to the driver, the hart keeps nothing but the fault flag. -/
def fetch (s : State) : Host.Outcome (Word32 × State) Fault Refusal :=
  if s.ready = false then .next (sentinelWord, s.setFault)
  else if s.halted then .fault .halted
  else
    let (v, t) := s.memRead s.pc 4
    .next (v.extractLsb' 0 32, t)

/-- `Execute(word)`: `INVALID_HANDLE` when the hart is not ready (10_state.md R32); no step when it is halted (60_exceptions.md
R236); else decode, then run the instruction or raise `IllegalInstruction` (R134, R137). What it returns is in `status`. -/
def execute (w : Word32) (s : State) : Host.Outcome State Fault Refusal :=
  if s.ready = false then .next (s.setStatus .invalidHandle)
  else if s.halted then .fault .halted
  else
    match decodeWord w with
    | .instr i => exec i s
    | .unimplemented word _ => .next (s.raiseIllegal word)

end Sys2Proof.Machine
end

