-- ==== Sys2Proof/Machine/Driver.lean ====
section
/-! DEFINITION. The driver: the operations it may perform (70_reset_and_hazards.md R268), and one round of a fetch-loop run
(40_fetch_decode_dispatch.md R141). Whole runs and their ends are in Machine/Runs.lean. -/

namespace Sys2Proof.Machine

/-! ## A round of the fetch loop -/

/-- The driver's increment, `pc <- (pc + PC_STEP) mod 2^64` (R141). -/
def State.advancePc (s : State) : State := { s with pc := s.pc + BitVec.ofNat 64 s.cfg.pcStep }

/-- Whether the driver goes on after an `Execute`: always after `OK`; after another status only if it so chooses (`cfg.goOn`;
R141, R237) and the hart has not halted (log 3). -/
def State.goesOn (s : State) : Bool := s.succeeded || (s.cfg.goOn && !s.halted)

/-- What the driver of a fetch loop does after an `Execute`: it advances `pc` if it goes on. The increment does not follow a
raise that ends the run (R270 case (c)). -/
def State.afterExecute (s : State) : State := if s.goesOn then s.advancePc else s

/-- One round of a fetch-loop run (R141): the word executed is the word fetched, whatever `fault` says. -/
def fetchLoopRound (s : State) : Host.Outcome State Fault Refusal :=
  match fetch s with
  | .next (w, t) =>
    match execute w t with
    | .next u => .next u.afterExecute
    | .fault r => .fault r
    | .refused r => .refused r
  | .fault r => .fault r
  | .refused r => .refused r

/-! ## Driver operations -/

/-- The operations of the driver (R268). An argument that a host program could leave absent is an `Option` or a `Bool`. -/
inductive DriverOp where
  /-- `memory.init(optional buffer)`: the buffer's bytes from offset 0 (R263) -/
  | memoryInit (buffer : Option (List Byte))
  /-- `bus.init(memory)`, with or without its argument (R262, R264) -/
  | busInit (memoryGiven : Bool)
  /-- `hart.init(bus)`, with or without its argument (R261, R262, R267) -/
  | hartInit (busGiven : Bool)
  /-- `hart.fetch()` -/
  | fetch
  /-- `hart.execute(word)` -/
  | execute (word : Word32)
  /-- `load(address, width)` through the Bus, `width` in bits -/
  | load (addr : Word) (width : Nat)
  /-- `store(address, width, value)` through the Bus, `width` in bits -/
  | store (addr : Word) (width : Nat) (value : Word)
  /-- `pc <- pc + PC_STEP` (R141) -/
  | advancePc
  /-- `pc <- target` (00_scope.md R13, 10_state.md R26) -/
  | setPc (target : Word)
  /-- `hart.deinit()` (R266) -/
  | hartDeinit
  /-- `bus.deinit()` (R266) -/
  | busDeinit
  /-- `memory.deinit()` (R266) -/
  | memoryDeinit
  deriving DecidableEq, Repr

/-- What an operation answers the driver. -/
inductive Answer where
  | ok
  | error
  | word (w : Word32)
  | value (v : Word)
  | status (r : Option Status)
  deriving DecidableEq, Repr

/-- The byte count of a width in bits; a width that is none of 8, 16, 32, 64 gives 0, which no access accepts (20_memory.md R52,
R57). -/
def bytesOfWidth (width : Nat) : Nat :=
  if width = 8 ∨ width = 16 ∨ width = 32 ∨ width = 64 then width / 8 else 0

/-- `memory.init` (R263): a new image, the buffer's bytes supplied (as many as the image has room for, log 12), the rest
unspecified. -/
def State.memoryInit (s : State) (buffer : Option (List Byte)) : State :=
  { s with
    mem := Memory.ofBytes s.cfg.base.toNat ((buffer.getD []).take s.cfg.capacity)
    memLive := true
    image := s.image + 1 }

/-- One driver operation, to completion: its answer and the state after it. A violation of the boot order or of its reverse at
power-down is caught as an invalid handle (R273 (a), 60_exceptions.md R239): an `init` whose argument is absent or not itself
initialised (R262), a `bus.deinit` under a ready hart, a `memory.deinit` under a bound Bus and an access through an unbound Bus
answer `error` and change nothing (log 11). A `deinit` of what is not initialised is one `deinit` too many (R273 (b), R266; U4)
and has no step. -/
def drive (op : DriverOp) (s : State) : Host.Outcome (Answer × State) Fault Refusal :=
  match op with
  | .memoryInit buffer => .next (.ok, s.memoryInit buffer)
  | .busInit given =>
    if given && s.memLive then .next (.ok, { s with busBound := true }) else .next (.error, s)
  | .hartInit given =>
    if given && s.busBound then .next (.ok, s.hartInit) else .next (.error, s)
  | .fetch =>
    match Sys2Proof.Machine.fetch s with
    | .next (w, t) => .next (.word w, t)
    | .fault r => .fault r
    | .refused r => .refused r
  | .execute w =>
    match Sys2Proof.Machine.execute w s with
    | .next t => .next (.status t.status, t)
    | .fault r => .fault r
    | .refused r => .refused r
  | .load addr width =>
    if s.busBound then
      let (v, t) := s.memRead addr (bytesOfWidth width)
      .next (.value v, t)
    else .next (.error, s)
  | .store addr width value =>
    if s.busBound then
      match s.memWrite addr (bytesOfWidth width) value with
      | (.ok, t) => .next (.ok, t)
      | (.error, t) => .next (.error, t)
    else .next (.error, s)
  | .advancePc => .next (.ok, s.advancePc)
  | .setPc target => .next (.ok, { s with pc := target })
  | .hartDeinit => if s.ready then .next (.ok, { s with ready := false }) else .refused .deinitTwice
  | .busDeinit =>
    if s.busBound then
      if s.ready then .next (.error, s) else .next (.ok, { s with busBound := false })
    else .refused .deinitTwice
  | .memoryDeinit =>
    if s.memLive then
      if s.busBound then .next (.error, s) else .next (.ok, { s with memLive := false, mem := [] })
    else .refused .deinitTwice

/-! ## Placing a word for the next fetch -/

/-- The address a word must stand at for the next fetch: `pc`, or `BASE` where no fetch at `pc` is valid. -/
def State.fetchAddr (s : State) : Word := if Config.accessOk s.cfg s.pc 4 then s.pc else s.cfg.base

/-- The state with a word stored little-endian where the next round fetches it, on a hart that can fetch. -/
def State.placeWord (s : State) (w : Word32) : State :=
  { s with
    mem := Memory.putLE s.mem s.fetchAddr.toNat w.toNat 4
    pc := s.fetchAddr
    ready := true
    busBound := true
    memLive := true
    halted := false }

end Sys2Proof.Machine
end

