-- ==== Sys2Proof/Machine/Step.lean ====
section
/-! DEFINITION. The step of the machine: one round of a fetch-loop run (40_fetch_decode_dispatch.md R141; log 2), and the state
with a given instruction placed for the next step (log 14). -/

namespace Sys2Proof.Machine

/-- `w <- Fetch(); Execute(w); pc <- pc + PC_STEP`. -/
def step (s : State) : Host.Outcome State Fault Refusal := fetchLoopRound s

/-- `s` with the instruction whose table bits are `w` (the bits above `nbits` zero) stored where `step` fetches next. -/
def State.withFetchWord (s : State) (nbits w : Nat) : State := s.placeWord (BitVec.ofNat 32 (w % 2 ^ nbits))

end Sys2Proof.Machine
end

