-- ==== Sys2Proof/Machine/Runs.lean ====
section
/-! DEFINITION. Whole runs (40_fetch_decode_dispatch.md R140, R141), how they end and when they have ended well
(70_reset_and_hazards.md R270, R271). A run of words and a run of rounds share one decision, `State.goOnOr`. -/

namespace Sys2Proof.Machine

/-- How a run ended: the cases of R270. -/
inductive RunEnd where
  /-- (a) the list has come to its end. DESIGN CHOICE (log 22): also where its last word raised and the driver went on from it, and
  where the list is empty, of which R270 says nothing -/
  | exhausted
  /-- (b) the driver stopped at a word: the outcome "illegal instruction at word index i" where the status is one -/
  | stoppedAtWord (index : Nat) (status : Status)
  /-- (c) the driver stopped after a round of the fetch loop -/
  | stoppedAtRound (round : Nat) (status : Status)
  /-- (d) the stated number of rounds is done, also where the driver went on from a raise in the last of them (log 22) -/
  | stepCount
  deriving DecidableEq, Repr

/-- A run that has ended: how, from which statuses other than `OK` the driver went on before that (with their word or round
index), and the final state (R271). -/
structure RunResult where
  ending : RunEnd
  passed : List (Nat × Status)
  final : State
  deriving DecidableEq, Repr

/-- What a claim about a run says beforehand: the word at which a fetch loop is meant to end, with its address (R270 (c)), and the
statuses other than `OK` it expects the driver to go on from (R270 (b)). -/
structure Plan where
  endsAt : Option (Word × Word32) := none
  expected : List (Nat × Status) := []
  deriving DecidableEq, Repr

/-- The same run, with one more status from which the driver went on. -/
def RunResult.pass (i : Nat) (q : Status) (r : RunResult) : RunResult := { r with passed := (i, q) :: r.passed }

/-- An outcome with its next state mapped. -/
def mapNext {α β : Type} (f : α → β) : Host.Outcome α Fault Refusal → Host.Outcome β Fault Refusal
  | .next x => .next (f x)
  | .fault r => .fault r
  | .refused r => .refused r

/-- After the `Execute` number `i` of a run left `t`: after `OK` the run goes on to `rest`; after another status it goes on if the
driver so chooses (`State.goesOn`: never after a halt), and else it ends there (R141, R237, R270). -/
def State.goOnOr (t : State) (i : Nat) (stop : Nat → Status → RunEnd) (rest : Host.Outcome RunResult Fault Refusal) :
    Host.Outcome RunResult Fault Refusal :=
  match t.status with
  | none => rest
  | some .ok => rest
  | some q => if t.goesOn then mapNext (RunResult.pass i q) rest else .next ⟨stop i q, [], t⟩

/-- A word-stream run (R140), its words numbered from `i`. DESIGN CHOICE (log 22): R270 (a) asks for the last word to have been
executed with status `OK`; an empty list, and a list whose last word returned another status from which the driver went on, end as
`exhausted` too, the latter with that status among those `passed`. -/
def runWords : List Word32 → Nat → State → Host.Outcome RunResult Fault Refusal
  | [], _, s => .next ⟨.exhausted, [], s⟩
  | w :: ws, i, s =>
    match execute w s with
    | .next t => t.goOnOr i .stoppedAtWord (runWords ws (i + 1) t)
    | .fault r => .fault r
    | .refused r => .refused r

/-- A fetch-loop run (R141) of at most `n` rounds, its rounds numbered from `i`: it ends at the first raise the driver does not go
on from, or when the `n` rounds are done. -/
def runRounds : Nat → Nat → State → Host.Outcome RunResult Fault Refusal
  | 0, _, s => .next ⟨.stepCount, [], s⟩
  | n + 1, i, s =>
    match fetchLoopRound s with
    | .next t => t.goOnOr i .stoppedAtRound (runRounds n (i + 1) t)
    | .fault r => .fault r
    | .refused r => .refused r

/-- Whether a run that has ended has ended well under a plan (R271): `fault` is 0, every status it passed was expected, and it is
neither a case (b) nor an unplanned case (c). At a planned end `pc` still names the address (the driver's increment does not
follow the raise). -/
def RunResult.endedWell (p : Plan) (r : RunResult) : Bool :=
  !r.final.fault && r.passed.all (fun x => p.expected.contains x) &&
    match r.ending with
    | .exhausted => true
    | .stepCount => true
    | .stoppedAtWord _ _ => false
    | .stoppedAtRound _ (.illegalInstruction w) => p.endsAt == some (r.final.pc, w)
    | .stoppedAtRound _ .ok => false
    | .stoppedAtRound _ .invalidHandle => false

end Sys2Proof.Machine
end

