-- ==== Sys2Proof/Safety.lean ====
section
/-! DEFINITION. What counts as a state that went wrong (60_exceptions.md R233; when a run ended well is Machine/Runs.lean's), the
invariant of the machine, and the frame of an executed instruction, in the terms the statements use. -/

namespace Sys2Proof.Machine

/-- A state that has gone wrong: the access-fault flag is set (R233). -/
def State.goneWrong (s : State) : Prop := s.fault = true

/-- The invariant: the window ends inside the address space (R7); the memory image is in canonical form and lists only bytes of the
window (R35, R64), and lists nothing where there is no image (R266); slot 0 holds 0 (R21); the hart halts in strict mode only
(R31); it is ready only with its bus bound, which is bound only to an existing memory (R265, R266). -/
structure State.Inv (s : State) : Prop where
  window : s.cfg.Valid
  memCanonical : Memory.wf s.mem
  memInWindow : ∀ c ∈ s.mem, s.cfg.base.toNat ≤ c.1 ∧ c.1 < s.cfg.base.toNat + s.cfg.capacity
  noImage : s.memLive = false → s.mem = []
  slotZero : s.regs[0] = 0
  haltedStrict : s.halted = true → s.cfg.illegalMode = .strict
  readyBound : s.ready = true → s.busBound = true
  boundLive : s.busBound = true → s.memLive = true

/-- The frame of an executed instruction with destination `rd` (40_fetch_decode_dispatch.md R138): every register but `rd` is
unchanged, and every register is when `rd = 0`; `pc`, the three flags, every byte of memory, the model's own lifecycle fields and
the configuration are unchanged; the status is `OK`. -/
structure OnlyWrites (rd : Reg) (s t : State) : Prop where
  regs : ∀ r, r ≠ rd ∨ rd = 0 → t.readReg r = s.readReg r
  pc : t.pc = s.pc
  fault : t.fault = s.fault
  halted : t.halted = s.halted
  ready : t.ready = s.ready
  bytes : ∀ a, t.readByte a = s.readByte a
  mem : t.mem = s.mem
  busBound : t.busBound = s.busBound
  memLive : t.memLive = s.memLive
  image : t.image = s.image
  cfg : t.cfg = s.cfg
  status : t.status = some .ok

/-- The instruction runs: `exec` answers a next state in which only its destination register is written, and where there is one
(`rd` is not slot 0) it holds a value with the property `P`. -/
def Completes (i : Instr) (s : State) (P : Word → Prop) : Prop :=
  ∃ t, exec i s = .next t ∧ OnlyWrites i.rd s t ∧ (i.rd ≠ 0 → P (t.readReg i.rd))

/-- `(addr, n)` is a valid access of the window `c` (20_memory.md R53), in numbers. -/
def ValidAccess (c : Config) (addr : Word) (n : Nat) : Prop :=
  (n = 1 ∨ n = 2 ∨ n = 4 ∨ n = 8) ∧ c.base.toNat ≤ addr.toNat ∧ addr.toNat + n ≤ c.base.toNat + c.capacity

/-- The word whose bytes stand at `a` to `a + 3` (20_memory.md R54). -/
def State.wordAt (s : State) (a : Nat) : Word32 :=
  wordOfBytes (s.readByte a) (s.readByte (a + 1)) (s.readByte (a + 2)) (s.readByte (a + 3))

end Sys2Proof.Machine
end

