-- ==== Sys2Proof/Certificates/Slice0/Obligations.lean ====
section
/-! DEFINITION. The statements for the provers. Numbers are written out here in plain arithmetic on naturals and integers (`toNat`,
`toInt`, `%`, `/`, which on integers is the floor for a positive divisor, and `Int.bmod`, the representative of least magnitude,
which is the two's-complement reading of the low bits), so that a statement does not repeat the definition it is about. A
docstring names the rule of spec/ it formalises; where a clause rests on a decision the spec marks as its own (`D<n>`) or on a
choice of this model (`log <n>`), it says so and the statement's basis is 'derived'. -/

open Sys2Proof Sys2Proof.Machine

/-! ## Reset, boot, power-down -/

/-- 10_state.md section 8: the values after a successful boot with the default window. `fault`, `halted`, `ready` and the index 2
rest on the spec's own D2, D14, D19, D10. -/
def Obligations.ResetStateValues : Prop :=
  (∀ r : Reg, r ≠ 2 → State.reset.readReg r = 0) ∧ State.reset.readReg 2 = 0x0000_0000_8010_0000 ∧
  State.reset.pc = 0x0000_0000_8000_0000 ∧ State.reset.fault = false ∧ State.reset.halted = false ∧ State.reset.ready = true

/-- The invariant (Safety.lean, this model's own) holds at reset. -/
def Obligations.ResetStateMeetsInv : Prop := State.reset.Inv

/-- 70_reset_and_hazards.md section 1 and R267 of section 2: `hart.init` with a bound bus, on any hart, is the reset, cold or
warm; memory keeps its bytes. Rests on D2, D10, D14, D19, D27; that the sum is taken modulo 2^64 in the register is log 19. -/
def Obligations.HartInitGivesResetValues : Prop :=
  ∀ s : State, s.busBound = true → ∃ t, drive (.hartInit true) s = .next (.ok, t) ∧
    (∀ r : Reg, r ≠ 2 → t.readReg r = 0) ∧ (t.readReg 2).toNat = (s.cfg.base.toNat + s.cfg.capacity) % 2 ^ 64 ∧
    t.pc = s.cfg.base ∧ t.fault = false ∧ t.halted = false ∧ t.ready = true ∧
    (∀ a, t.readByte a = s.readByte a) ∧ t.mem = s.mem ∧ t.cfg = s.cfg ∧ t.busBound = true ∧ t.memLive = s.memLive

/-- 70_reset_and_hazards.md section 2: from any state the boot order memory, bus, hart succeeds and leaves the initial state of a
run: the buffer's bytes from BASE on, and at an offset of the window nobody supplied the free byte of that offset (D13, log 4,
log 12). That `memory.init` always answers `ok` is log 20 (DESIGN CHOICE: section 1 lets it fail), that it may be repeated at any
time log 11, and that it then makes a new image, with free bytes of its own, log 7. `fault`, `halted`, `ready` and the index 2 rest
on D2, D14, D19, D10; that the sum is taken modulo 2^64 is log 19. -/
def Obligations.BootGivesInitialState : Prop :=
  ∀ (s : State) (buffer : Option (List Byte)), ∃ t₁ t₂ t₃,
    drive (.memoryInit buffer) s = .next (.ok, t₁) ∧ drive (.busInit true) t₁ = .next (.ok, t₂) ∧
    drive (.hartInit true) t₂ = .next (.ok, t₃) ∧
    (∀ r : Reg, r ≠ 2 → t₃.readReg r = 0) ∧ (t₃.readReg 2).toNat = (s.cfg.base.toNat + s.cfg.capacity) % 2 ^ 64 ∧
    t₃.pc = s.cfg.base ∧ t₃.fault = false ∧ t₃.halted = false ∧ t₃.ready = true ∧ t₃.cfg = s.cfg ∧
    ∀ k < s.cfg.capacity,
      (∀ b, (buffer.getD [])[k]? = some b → t₃.readByte (s.cfg.base.toNat + k) = b) ∧
      ((buffer.getD [])[k]? = none → t₃.readByte (s.cfg.base.toNat + k) = Config.memInit t₃.image k)

/-- 70_reset_and_hazards.md section 1 (`init` whose argument is absent fails and changes nothing; for `hart.init` D19): absent, or
present but itself not initialised (R273 (a)). -/
def Obligations.InitWithoutArgumentFails : Prop :=
  ∀ s : State,
    drive (.busInit false) s = .next (.error, s) ∧ drive (.hartInit false) s = .next (.error, s) ∧
    (s.memLive = false → drive (.busInit true) s = .next (.error, s)) ∧
    (s.busBound = false → drive (.hartInit true) s = .next (.error, s))

/-- 70_reset_and_hazards.md section 2, power-down: hart, bus, memory, in that order, each answers `ok`; after `hart.deinit` the
hart is not ready, `Execute` returns `INVALID_HANDLE` (D19), memory is as before, and of the rest of the hart nothing is said (D27,
U3). Out of that order an operation is caught as an invalid handle (section 5, restriction (a); log 11): it answers `error` and
changes nothing, a load and a store through an unbound Bus included. A `deinit` too many (restriction (b); U4) has no step. -/
def Obligations.TeardownInReverseOrder : Prop :=
  ∀ s : State, s.Inv → s.ready = true → ∃ t₁ t₂ t₃,
    (drive .hartDeinit s = .next (.ok, t₁) ∧ t₁.ready = false ∧ (∀ a, t₁.readByte a = s.readByte a) ∧
      ∀ w, ∃ u, execute w t₁ = .next u ∧ u.status = some .invalidHandle) ∧
    (drive .busDeinit t₁ = .next (.ok, t₂) ∧ (∀ a, t₂.readByte a = s.readByte a) ∧
      (∀ a n, drive (.load a n) t₂ = .next (.error, t₂)) ∧ ∀ a n v, drive (.store a n v) t₂ = .next (.error, t₂)) ∧
    (drive .memoryDeinit t₂ = .next (.ok, t₃) ∧ drive (.busInit true) t₃ = .next (.error, t₃)) ∧
    (drive .busDeinit s = .next (.error, s) ∧ drive .memoryDeinit s = .next (.error, s) ∧
      drive .memoryDeinit t₁ = .next (.error, t₁)) ∧
    drive .hartDeinit t₁ = .refused .deinitTwice ∧ drive .busDeinit t₂ = .refused .deinitTwice ∧
    drive .memoryDeinit t₃ = .refused .deinitTwice

/-! ## OP-IMM -/

/-- 41_op_imm.md R150, whole: the encoding and the operation (sum modulo 2^64, any overflow wraps), for every state, every pair of
registers and every immediate, `rd = 0` included. -/
def Obligations.AddiAddsImmediate : Prop :=
  (∀ (rd rs1 : Reg) (imm : BitVec 12),
    decodeWord (imm ++ BitVec.ofNat 5 rs1.val ++ 0b000#3 ++ BitVec.ofNat 5 rd.val ++ 0b0010011#7) = .instr (.addi rd rs1 imm)) ∧
  ∀ (s : State) (rd rs1 : Reg) (imm : BitVec 12), Completes (.addi rd rs1 imm) s fun v =>
    (v.toNat : Int) = ((s.readReg rs1).toNat + imm.toInt) % 2 ^ 64

/-- 41_op_imm.md, operations of SLTI and SLTIU (SLTIU sign-extends, then compares unsigned: D26). -/
def Obligations.SltiSltiuCompare : Prop :=
  ∀ (s : State) (rd rs1 : Reg) (imm : BitVec 12),
    (Completes (.slti rd rs1 imm) s fun v => v = if (s.readReg rs1).toInt < imm.toInt then 1 else 0) ∧
    (Completes (.sltiu rd rs1 imm) s fun v =>
      v = if ((s.readReg rs1).toNat : Int) < imm.toInt % 2 ^ 64 then 1 else 0)

/-- 41_op_imm.md, operations of XORI, ORI, ANDI: bit by bit, bit 11 of the immediate standing in for all higher bits. -/
def Obligations.ImmediateLogicBitwise : Prop :=
  ∀ (s : State) (rd rs1 : Reg) (imm : BitVec 12),
    (Completes (.xori rd rs1 imm) s fun v =>
      ∀ k < 64, v.getLsbD k = ((s.readReg rs1).getLsbD k ^^ imm.getLsbD (min k 11))) ∧
    (Completes (.ori rd rs1 imm) s fun v =>
      ∀ k < 64, v.getLsbD k = ((s.readReg rs1).getLsbD k || imm.getLsbD (min k 11))) ∧
    (Completes (.andi rd rs1 imm) s fun v =>
      ∀ k < 64, v.getLsbD k = ((s.readReg rs1).getLsbD k && imm.getLsbD (min k 11)))

/-- 41_op_imm.md, operations of SLLI, SRLI, SRAI for every legal shift amount, 0 to 63. -/
def Obligations.ImmediateShifts : Prop :=
  ∀ (s : State) (rd rs1 : Reg) (sh : Nat), sh < 64 →
    (Completes (.slli rd rs1 sh) s fun v => v.toNat = (s.readReg rs1).toNat * 2 ^ sh % 2 ^ 64) ∧
    (Completes (.srli rd rs1 sh) s fun v => v.toNat = (s.readReg rs1).toNat / 2 ^ sh) ∧
    (Completes (.srai rd rs1 sh) s fun v => v.toInt = (s.readReg rs1).toInt / 2 ^ sh)

/-! ## OP -/

/-- 43_op.md R180, whole: the encoding and the operation (sum modulo 2^64), for every state and every three registers. -/
def Obligations.AddAddsRegisters : Prop :=
  (∀ rd rs1 rs2 : Reg,
    decodeWord (0b0000000#7 ++ BitVec.ofNat 5 rs2.val ++ BitVec.ofNat 5 rs1.val ++ 0b000#3 ++ BitVec.ofNat 5 rd.val ++ 0b0110011#7) =
      .instr (.add rd rs1 rs2)) ∧
  ∀ (s : State) (rd rs1 rs2 : Reg), Completes (.add rd rs1 rs2) s fun v =>
    v.toNat = ((s.readReg rs1).toNat + (s.readReg rs2).toNat) % 2 ^ 64

/-- 43_op.md, operation of SUB: the difference modulo 2^64 (a borrow wraps: D6). -/
def Obligations.SubSubtractsRegisters : Prop :=
  ∀ (s : State) (rd rs1 rs2 : Reg), Completes (.sub rd rs1 rs2) s fun v =>
    (v.toNat : Int) = ((s.readReg rs1).toNat - (s.readReg rs2).toNat) % 2 ^ 64

/-- 43_op.md, operations of SLT and SLTU. -/
def Obligations.SltSltuCompare : Prop :=
  ∀ (s : State) (rd rs1 rs2 : Reg),
    (Completes (.slt rd rs1 rs2) s fun v => v = if (s.readReg rs1).toInt < (s.readReg rs2).toInt then 1 else 0) ∧
    (Completes (.sltu rd rs1 rs2) s fun v => v = if (s.readReg rs1).toNat < (s.readReg rs2).toNat then 1 else 0)

/-- 43_op.md, operations of XOR, OR, AND, bit by bit. -/
def Obligations.RegisterLogicBitwise : Prop :=
  ∀ (s : State) (rd rs1 rs2 : Reg),
    (Completes (.xor rd rs1 rs2) s fun v =>
      ∀ k < 64, v.getLsbD k = ((s.readReg rs1).getLsbD k ^^ (s.readReg rs2).getLsbD k)) ∧
    (Completes (.or rd rs1 rs2) s fun v =>
      ∀ k < 64, v.getLsbD k = ((s.readReg rs1).getLsbD k || (s.readReg rs2).getLsbD k)) ∧
    (Completes (.and rd rs1 rs2) s fun v =>
      ∀ k < 64, v.getLsbD k = ((s.readReg rs1).getLsbD k && (s.readReg rs2).getLsbD k))

/-- 43_op.md, operations of SLL, SRL, SRA: the amount is the second source modulo 64, whatever its upper bits. -/
def Obligations.RegisterShiftsMaskAmount : Prop :=
  ∀ (s : State) (rd rs1 rs2 : Reg),
    (Completes (.sll rd rs1 rs2) s fun v =>
      v.toNat = (s.readReg rs1).toNat * 2 ^ ((s.readReg rs2).toNat % 64) % 2 ^ 64) ∧
    (Completes (.srl rd rs1 rs2) s fun v => v.toNat = (s.readReg rs1).toNat / 2 ^ ((s.readReg rs2).toNat % 64)) ∧
    (Completes (.sra rd rs1 rs2) s fun v => v.toInt = (s.readReg rs1).toInt / 2 ^ ((s.readReg rs2).toNat % 64))

/-! ## The word-width families -/

/-- 42_op_imm_32.md R174, whole: all nine word-width instructions compute on the low 32 bits of their sources, with the shift
amount masked to five bits, and sign-extend the 32-bit result. -/
def Obligations.WordWidthLaw : Prop :=
  ∀ (s : State) (rd rs1 rs2 : Reg),
    (∀ imm : BitVec 12, Completes (.addiw rd rs1 imm) s fun v =>
      v.toInt = Int.bmod (((s.readReg rs1).toNat % 2 ^ 32 : Nat) + imm.toInt) (2 ^ 32)) ∧
    (∀ sh < 32, Completes (.slliw rd rs1 sh) s fun v =>
      v.toInt = Int.bmod ((s.readReg rs1).toNat % 2 ^ 32 * 2 ^ sh : Nat) (2 ^ 32)) ∧
    (∀ sh < 32, Completes (.srliw rd rs1 sh) s fun v =>
      v.toInt = Int.bmod ((s.readReg rs1).toNat % 2 ^ 32 / 2 ^ sh : Nat) (2 ^ 32)) ∧
    (∀ sh < 32, Completes (.sraiw rd rs1 sh) s fun v =>
      v.toInt = Int.bmod ((s.readReg rs1).toNat % 2 ^ 32 : Nat) (2 ^ 32) / 2 ^ sh) ∧
    (Completes (.addw rd rs1 rs2) s fun v =>
      v.toInt = Int.bmod ((s.readReg rs1).toNat % 2 ^ 32 + (s.readReg rs2).toNat % 2 ^ 32 : Nat) (2 ^ 32)) ∧
    (Completes (.subw rd rs1 rs2) s fun v =>
      v.toInt = Int.bmod (((s.readReg rs1).toNat % 2 ^ 32 : Nat) - ((s.readReg rs2).toNat % 2 ^ 32 : Nat)) (2 ^ 32)) ∧
    (Completes (.sllw rd rs1 rs2) s fun v =>
      v.toInt = Int.bmod ((s.readReg rs1).toNat % 2 ^ 32 * 2 ^ ((s.readReg rs2).toNat % 32) : Nat) (2 ^ 32)) ∧
    (Completes (.srlw rd rs1 rs2) s fun v =>
      v.toInt = Int.bmod ((s.readReg rs1).toNat % 2 ^ 32 / 2 ^ ((s.readReg rs2).toNat % 32) : Nat) (2 ^ 32)) ∧
    (Completes (.sraw rd rs1 rs2) s fun v =>
      v.toInt = Int.bmod ((s.readReg rs1).toNat % 2 ^ 32 : Nat) (2 ^ 32) / 2 ^ ((s.readReg rs2).toNat % 32))

/-- 42_op_imm_32.md and 44_op_32.md, section 1 of each: on two states whose registers agree in their low 32 bits, a word-width
instruction gives the same result, and bits 63:32 of it equal its bit 31. -/
def Obligations.WordOpsIgnoreUpperHalves : Prop :=
  ∀ (i : Instr) (s s' : State), i.mnemonic.enc.opcode = 0x1b#7 ∨ i.mnemonic.enc.opcode = 0x3b#7 →
    (∀ r, (s.readReg r).toNat % 2 ^ 32 = (s'.readReg r).toNat % 2 ^ 32) →
    ∃ t t', exec i s = .next t ∧ exec i s' = .next t' ∧
      (i.rd ≠ 0 → t.readReg i.rd = t'.readReg i.rd) ∧
      ∀ k, 32 ≤ k → k < 64 → (i.rd ≠ 0 → (t.readReg i.rd).getLsbD k = (t.readReg i.rd).getLsbD 31)

/-! ## Every instruction -/

/-- 10_state.md R21, whole: 32 slots of 64 bits; slot `i` reads its contents, slot 0 reads 0 in every state. Reading is a function
of the state, so it has no side effect. -/
def Obligations.RegisterReadsItsSlot : Prop :=
  ∀ s : State, s.readReg 0 = 0 ∧ ∀ r : Reg, r ≠ 0 → s.readReg r = s.regs[r.val]

/-- 10_state.md section 2 and 40_fetch_decode_dispatch.md section 3: in every state every instruction completes with status `OK`,
writes no register but its destination (none when `rd = 0`), and leaves `pc`, the flags, every byte of memory and the
configuration unchanged. -/
def Obligations.EveryInstructionWritesOnlyRd : Prop :=
  ∀ (i : Instr) (s : State), ∃ t, exec i s = .next t ∧ OnlyWrites i.rd s t

/-- 40_fetch_decode_dispatch.md R138, whole: the one side effect of a successful `Execute` is the write of `x[rd]`; memory is
neither written nor read, `fault` neither set nor read, `pc` unchanged, `halted` stays 0, and no result raises anything: a state
that differs in memory, `pc` and `fault` gives the same value. -/
def Obligations.SuccessfulExecuteOneSideEffect : Prop :=
  ∀ (w : Word32) (i : Instr) (s : State), decodeWord w = .instr i → s.ready = true → s.halted = false →
    ∃ t, execute w s = .next t ∧ OnlyWrites i.rd s t ∧ t.halted = false ∧
      ∀ (m : Memory) (g : Nat) (p : Word) (f : Bool), ∃ t', execute w { s with mem := m, image := g, pc := p, fault := f } = .next t' ∧
        (∀ r, t'.readReg r = t.readReg r) ∧ t'.status = t.status ∧ t'.fault = f ∧ t'.pc = p

/-- 40_fetch_decode_dispatch.md section 3 (D25): `Execute` depends on its word, the registers, the two lifecycle flags and the
mode alone. -/
def Obligations.ExecuteDependsOnWordAndRegisters : Prop :=
  ∀ (w : Word32) (s s' t : State), (∀ r, s'.readReg r = s.readReg r) → s'.ready = s.ready → s'.halted = s.halted →
    s'.cfg.illegalMode = s.cfg.illegalMode → execute w s = .next t →
    ∃ t', execute w s' = .next t' ∧ (∀ r, t'.readReg r = t.readReg r) ∧ t'.status = t.status ∧ t'.halted = t.halted

/-- 10_state.md section 4 (D21): `Fetch` and `Execute` behave the same whether `fault` is 0 or 1. -/
def Obligations.FaultFlagIsInert : Prop :=
  ∀ (w : Word32) (s : State) (f : Bool),
    (∀ t, execute w s = .next t → execute w { s with fault := f } = .next { t with fault := f }) ∧
    (∀ x t, fetch s = .next (x, t) → ∃ t', fetch { s with fault := f } = .next (x, t') ∧
      { t' with fault := false } = { t with fault := false }) ∧
    ∀ t, step s = .next t → ∃ t', step { s with fault := f } = .next t' ∧
      { t' with fault := false } = { t with fault := false }

/-! ## Encoding -/

/-- 30_encoding.md R91, whole: each field by its shift and mask, from every word, and the six fields tile the word. -/
def Obligations.FieldsTileTheWord : Prop :=
  ∀ w : Word32,
    (opcodeOf w).setWidth 32 = w &&& 0x7f#32 ∧
    (BitVec.ofFin (rdOf w) : BitVec 5).setWidth 32 = (w >>> 7) &&& 0x1f#32 ∧
    (funct3Of w).setWidth 32 = (w >>> 12) &&& 0x7#32 ∧
    (BitVec.ofFin (rs1Of w) : BitVec 5).setWidth 32 = (w >>> 15) &&& 0x1f#32 ∧
    (BitVec.ofFin (rs2Of w) : BitVec 5).setWidth 32 = (w >>> 20) &&& 0x1f#32 ∧
    (funct7Of w).setWidth 32 = (w >>> 25) &&& 0x7f#32 ∧
    w = funct7Of w ++ (BitVec.ofFin (rs2Of w) : BitVec 5) ++ (BitVec.ofFin (rs1Of w) : BitVec 5) ++ funct3Of w ++
      (BitVec.ofFin (rdOf w) : BitVec 5) ++ opcodeOf w

/-- 30_encoding.md R95: every one of the five decoders gives 64 bits that equal `word[31]` from its top position up. -/
def Obligations.ImmediatesTakeSignFromBit31 : Prop :=
  ∀ (w : Word32) (k : Nat), k < 64 →
    (11 ≤ k → (immI w).getLsbD k = w.getLsbD 31) ∧ (11 ≤ k → (immS w).getLsbD k = w.getLsbD 31) ∧
    (12 ≤ k → (immB w).getLsbD k = w.getLsbD 31) ∧ (31 ≤ k → (immU w).getLsbD k = w.getLsbD 31) ∧
    (20 ≤ k → (immJ w).getLsbD k = w.getLsbD 31)

/-- 30_encoding.md R96, R97 and R99, whole: the values of the I, S and U immediates from the word as a signed 32-bit number, and
their ranges. -/
def Obligations.ImmediateISUValues : Prop :=
  ∀ w : Word32,
    ((immI w).toInt = w.toInt / 2 ^ 20 ∧ -2048 ≤ (immI w).toInt ∧ (immI w).toInt ≤ 2047) ∧
    ((immS w).toInt = w.toInt / 2 ^ 25 * 2 ^ 5 + ((w.toNat / 2 ^ 7 % 2 ^ 5 : Nat) : Int) ∧
      -2048 ≤ (immS w).toInt ∧ (immS w).toInt ≤ 2047) ∧
    ((immU w).toInt = w.toInt / 2 ^ 12 * 2 ^ 12 ∧ -2 ^ 31 ≤ (immU w).toInt ∧ (immU w).toInt ≤ 2 ^ 31 - 4096)

/-- 30_encoding.md section 2: the values of the B and J immediates, bit group by bit group, both even. The positions of
`word[11:8]` in B and of every group in J are what the spec takes from standard RISC-V (D24, G2). -/
def Obligations.ImmediateBJValues : Prop :=
  ∀ w : Word32,
    ((immB w).toInt = -(2 ^ 12 * ((w.toNat / 2 ^ 31 % 2 : Nat) : Int)) + 2 ^ 11 * ((w.toNat / 2 ^ 7 % 2 : Nat) : Int) +
      2 ^ 5 * ((w.toNat / 2 ^ 25 % 2 ^ 6 : Nat) : Int) + 2 * ((w.toNat / 2 ^ 8 % 2 ^ 4 : Nat) : Int) ∧
      -4096 ≤ (immB w).toInt ∧ (immB w).toInt ≤ 4094) ∧
    ((immJ w).toInt = -(2 ^ 20 * ((w.toNat / 2 ^ 31 % 2 : Nat) : Int)) + 2 ^ 12 * ((w.toNat / 2 ^ 12 % 2 ^ 8 : Nat) : Int) +
      2 ^ 11 * ((w.toNat / 2 ^ 20 % 2 : Nat) : Int) + 2 * ((w.toNat / 2 ^ 21 % 2 ^ 10 : Nat) : Int) ∧
      -2 ^ 20 ≤ (immJ w).toInt ∧ (immJ w).toInt ≤ 2 ^ 20 - 2)

/-- 30_encoding.md R102, whole: the dispatch is over exactly four opcodes, each routing to its handler's instructions, further on
funct3 and funct7 alone (the selector of the immediate shifts lies in funct7); every other opcode is unimplemented. -/
def Obligations.FourOpcodesDispatch : Prop :=
  (∀ w i, decodeWord w = .instr i →
    (opcodeOf w = 0b0010011#7 ∧ i.mnemonic ∈ [.addi, .slti, .sltiu, .xori, .ori, .andi, .slli, .srli, .srai]) ∨
    (opcodeOf w = 0b0011011#7 ∧ i.mnemonic ∈ [.addiw, .slliw, .srliw, .sraiw]) ∨
    (opcodeOf w = 0b0110011#7 ∧ i.mnemonic ∈ [.add, .sub, .sll, .slt, .sltu, .xor, .srl, .sra, .or, .and]) ∨
    (opcodeOf w = 0b0111011#7 ∧ i.mnemonic ∈ [.addw, .subw, .sllw, .srlw, .sraw])) ∧
  (∀ w w', opcodeOf w' = opcodeOf w → funct3Of w' = funct3Of w → funct7Of w' = funct7Of w →
    mnemonicOf w' = mnemonicOf w) ∧
  ∀ w, opcodeOf w ∉ [0x13#7, 0x1b#7, 0x33#7, 0x3b#7] → decodeWord w = .unimplemented w .opcode

/-- 30_encoding.md section 4 (what R108 lists; the refused selectors rest on D7, D8, D22, the numbers on D9): the eight cases of an
unimplemented word, each decoded under its own name; every word is an instruction or unimplemented; an unimplemented word
raises. -/
def Obligations.UnimplementedWordCases : Prop :=
  ∀ w : Word32,
    (decodeWord w = .unimplemented w .opcode ↔
      opcodeOf w ≠ 0x13#7 ∧ opcodeOf w ≠ 0x1b#7 ∧ opcodeOf w ≠ 0x33#7 ∧ opcodeOf w ≠ 0x3b#7) ∧
    (decodeWord w = .unimplemented w .slliSelector ↔
      opcodeOf w = 0x13#7 ∧ funct3Of w = 0b001#3 ∧ sel6Of w ≠ 0b000000#6) ∧
    (decodeWord w = .unimplemented w .srliSraiSelector ↔
      opcodeOf w = 0x13#7 ∧ funct3Of w = 0b101#3 ∧ sel6Of w ≠ 0b000000#6 ∧ sel6Of w ≠ 0b010000#6) ∧
    (decodeWord w = .unimplemented w .opImm32Funct3 ↔
      opcodeOf w = 0x1b#7 ∧ funct3Of w ∈ [0b010#3, 0b011#3, 0b100#3, 0b110#3, 0b111#3]) ∧
    (decodeWord w = .unimplemented w .slliwSelector ↔
      opcodeOf w = 0x1b#7 ∧ funct3Of w = 0b001#3 ∧ funct7Of w ≠ 0b0000000#7) ∧
    (decodeWord w = .unimplemented w .srliwSraiwSelector ↔
      opcodeOf w = 0x1b#7 ∧ funct3Of w = 0b101#3 ∧ funct7Of w ≠ 0b0000000#7 ∧ funct7Of w ≠ 0b0100000#7) ∧
    (decodeWord w = .unimplemented w .opPair ↔
      opcodeOf w = 0x33#7 ∧ (funct3Of w, funct7Of w) ∉
        [(0b000#3, 0b0000000#7), (0b000#3, 0b0100000#7), (0b001#3, 0b0000000#7), (0b010#3, 0b0000000#7), (0b011#3, 0b0000000#7),
         (0b100#3, 0b0000000#7), (0b101#3, 0b0000000#7), (0b101#3, 0b0100000#7), (0b110#3, 0b0000000#7), (0b111#3, 0b0000000#7)]) ∧
    (decodeWord w = .unimplemented w .op32Pair ↔
      opcodeOf w = 0x3b#7 ∧ (funct3Of w, funct7Of w) ∉
        [(0b000#3, 0b0000000#7), (0b000#3, 0b0100000#7), (0b001#3, 0b0000000#7), (0b101#3, 0b0000000#7), (0b101#3, 0b0100000#7)]) ∧
    ((∃ i, decodeWord w = .instr i) ∨ ∃ c, decodeWord w = .unimplemented w c) ∧
    ∀ c (s : State), decodeWord w = .unimplemented w c → s.ready = true → s.halted = false →
      execute w s = .next (s.raiseIllegal w)

/-- 30_encoding.md section 4 ("exactly one of the 28 instructions"): no word fits two rows of the table, and every row is one the
decoder looks at. -/
def Obligations.EachWordFitsAtMostOneRow : Prop :=
  ∀ (w : Word32) (m : Mnemonic), m.enc.accepts w = true →
    mnemonicOf w = some m ∧ ∀ m' : Mnemonic, m'.enc.accepts w = true → m' = m

/-- Decoding the encoding of any well-formed instruction gives it back, as a word and as bytes, with whatever follows it. -/
def Obligations.DecodeOfEncode : Prop :=
  ∀ i : Instr, i.wellFormed = true → decodeWord (encode i) = .instr i ∧
    ∀ rest, decodeBytes (encodeBytes i ++ rest) = .decoded (.instr i) rest

/-- Whatever word decodes to an instruction, the instruction is well formed and its encoding is that word: no bit of an
implemented word is dropped. -/
def Obligations.EncodeOfDecode : Prop :=
  ∀ (w : Word32) (i : Instr), decodeWord w = .instr i → i.wellFormed = true ∧ encode i = w

/-- 30_encoding.md section 1, building a word from its fields by shifts (what the spec derives as R93), for the R and the I format
of every instruction of the register-register and the register-immediate kind. -/
def Obligations.EncodedWordsByShiftFormula : Prop :=
  (∀ (e : Enc) (rd rs1 rs2 : Reg), e.wordR rd rs1 rs2 =
    (e.sel7.setWidth 32 <<< 25) ||| ((BitVec.ofNat 32 rs2.val) <<< 20) ||| ((BitVec.ofNat 32 rs1.val) <<< 15) |||
      (e.funct3.setWidth 32 <<< 12) ||| ((BitVec.ofNat 32 rd.val) <<< 7) ||| e.opcode.setWidth 32) ∧
  ∀ (e : Enc) (rd rs1 : Reg) (imm : BitVec 12), e.wordI rd rs1 imm =
    (imm.setWidth 32 <<< 20) ||| ((BitVec.ofNat 32 rs1.val) <<< 15) ||| (e.funct3.setWidth 32 <<< 12) |||
      ((BitVec.ofNat 32 rd.val) <<< 7) ||| e.opcode.setWidth 32

/-- Words written out bit by bit from the spec's encodings decode to the instructions they stand for (the first two are the
source's own examples; the other numbers are those of section 3 of 30_encoding.md, which are D9's, log 13). -/
def Obligations.WrittenOutWordsDecode : Prop :=
  decodeWord 0b001111101000_00000_000_00001_0010011#32 = .instr (.addi 1 0 1000#12) ∧
  decodeWord 0b0000000_00001_00001_000_00010_0110011#32 = .instr (.add 2 1 1) ∧
  decodeWord 0b010000_111111_00110_101_00101_0010011#32 = .instr (.srai 5 6 63) ∧
  decodeWord 0b0100000_11111_00110_101_00101_0011011#32 = .instr (.sraiw 5 6 31) ∧
  decodeWord 0b0100000_00111_00110_000_00101_0111011#32 = .instr (.subw 5 6 7) ∧
  decodeWord 0x00000000#32 = .unimplemented 0x00000000#32 .opcode

/-! ## Memory -/

/-- 20_memory.md R55, whole: a valid load gives the sum of its bytes, lowest address least significant, zero-extended, and changes
nothing. -/
def Obligations.LoadReadsLittleEndian : Prop :=
  ∀ (s : State) (addr : Word) (n : Nat), ValidAccess s.cfg addr n → ∃ v, s.memRead addr n = (v, s) ∧
    v.toNat = ∑ i ∈ Finset.range n, (s.readByte (addr.toNat + i)).toNat * 2 ^ (8 * i)

/-- 20_memory.md R58, whole: a valid store answers `ok`, puts byte `i` of the value at `addr + i` for each of its `n` bytes, and
changes nothing else: no other byte of memory, no register, no flag. -/
def Obligations.StoreWritesItsBytes : Prop :=
  ∀ (s : State) (addr v : Word) (n : Nat), ValidAccess s.cfg addr n → ∃ t, s.memWrite addr n v = (.ok, t) ∧
    (∀ i < n, t.readByte (addr.toNat + i) = v.extractLsb' (8 * i) 8) ∧
    (∀ a, a < addr.toNat ∨ addr.toNat + n ≤ a → t.readByte a = s.readByte a) ∧
    t = { s with mem := t.mem }

/-- 20_memory.md section 5 (what the spec derives as R60): a load of the same width gives back the stored value modulo its
width, at every valid address and alignment. -/
def Obligations.LoadAfterStore : Prop :=
  ∀ (s : State) (addr v : Word) (n : Nat), ValidAccess s.cfg addr n → ∃ t, s.memWrite addr n v = (.ok, t) ∧
    ∃ x, t.memRead addr n = (x, t) ∧ x.toNat = v.toNat % 2 ^ (8 * n)

/-- 60_exceptions.md section 1, access fault: a load whose width is none of the four or which does not lie in the window (the sum in
unbounded integers: D11) sets `fault`, and nothing else, and returns the sentinel, 64 bits of ones whatever the width (D16, log 18);
a `Fetch` likewise, with the sentinel's low 32 bits (what the spec derives as R131); a valid load leaves the state as it was; no
instruction touches the flag. -/
def Obligations.LoadFaultsOutsideWindow : Prop :=
  ∀ (s : State) (addr : Word) (width : Nat), s.busBound = true →
    (¬ (width ∈ [8, 16, 32, 64] ∧ s.cfg.base.toNat ≤ addr.toNat ∧
        addr.toNat + width / 8 ≤ s.cfg.base.toNat + s.cfg.capacity) →
      drive (.load addr width) s = .next (.value 0xFFFF_FFFF_FFFF_FFFF, { s with fault := true })) ∧
    (width ∈ [8, 16, 32, 64] ∧ s.cfg.base.toNat ≤ addr.toNat ∧
        addr.toNat + width / 8 ≤ s.cfg.base.toNat + s.cfg.capacity →
      ∃ v, drive (.load addr width) s = .next (.value v, s)) ∧
    (s.ready = true → s.halted = false →
      ¬ (s.cfg.base.toNat ≤ s.pc.toNat ∧ s.pc.toNat + 4 ≤ s.cfg.base.toNat + s.cfg.capacity) →
      fetch s = .next (0xFFFF_FFFF, { s with fault := true })) ∧
    ∀ i, ∃ t, exec i s = .next t ∧ t.fault = s.fault

/-- 60_exceptions.md section 1, access error: a store whose width is none of the four or which does not lie in the window (the sum in
unbounded integers: D11, log 19) answers `error` and changes nothing, not even `fault` (D17); a valid one answers `ok`; no instruction
stores. -/
def Obligations.StoreErrorsOutsideWindow : Prop :=
  ∀ (s : State) (addr value : Word) (width : Nat), s.busBound = true →
    (¬ (width ∈ [8, 16, 32, 64] ∧ s.cfg.base.toNat ≤ addr.toNat ∧
        addr.toNat + width / 8 ≤ s.cfg.base.toNat + s.cfg.capacity) →
      drive (.store addr width value) s = .next (.error, s)) ∧
    (width ∈ [8, 16, 32, 64] ∧ s.cfg.base.toNat ≤ addr.toNat ∧
        addr.toNat + width / 8 ≤ s.cfg.base.toNat + s.cfg.capacity →
      ∃ t, drive (.store addr width value) s = .next (.ok, t) ∧ t.fault = s.fault) ∧
    ∀ i, ∃ t, exec i s = .next t ∧ ∀ a, t.readByte a = s.readByte a

/-! ## Fetch -/

/-- 40_fetch_decode_dispatch.md R130, whole: a `Fetch` with a valid `pc` gives the four bytes at `pc`, little-endian, the low half
of a 32-bit load there, and changes nothing. -/
def Obligations.FetchReadsWordAtPc : Prop :=
  ∀ s : State, s.ready = true → s.halted = false → ValidAccess s.cfg s.pc 4 →
    fetch s = .next (s.readByte (s.pc.toNat + 3) ++ s.readByte (s.pc.toNat + 2) ++ s.readByte (s.pc.toNat + 1) ++
      s.readByte s.pc.toNat, s) ∧
    ∃ v, s.memRead s.pc 4 = (v, s) ∧ fetch s = .next (v.setWidth 32, s)

/-- 20_memory.md section 9 (what the spec derives as R69): a `Fetch` sees the latest store to its address. -/
def Obligations.FetchSeesStore : Prop :=
  ∀ (s : State) (v : Word), s.ready = true → s.halted = false → ValidAccess s.cfg s.pc 4 →
    ∃ t, s.memWrite s.pc 4 v = (.ok, t) ∧ fetch t = .next (v.setWidth 32, t)

/-- 40_fetch_decode_dispatch.md section 2 and 10_state.md section 4 (D19): on a hart that is not ready `Fetch` sets `fault` and
returns all ones, `Execute` returns `INVALID_HANDLE` (kept in the status: D28, log 5); nothing else changes. That `Fetch` does so on
a hart that is halted as well is log 8 (DEDUCED). -/
def Obligations.NotReadyHart : Prop :=
  ∀ (s : State) (w : Word32), s.ready = false →
    fetch s = .next (0xFFFF_FFFF, { s with fault := true }) ∧
    execute w s = .next { s with status := some .invalidHandle }

/-! ## The step -/

/-- A step runs the decoded instruction: where the four bytes at `pc` decode to a well-formed instruction, the step on a ready hart
that has not halted is `exec` of it at that state, followed by the driver's increment of `pc` by PC_STEP (log 2). -/
def Obligations.StepRunsDecodedInstruction : Prop :=
  ∀ (s : State) (i : Instr), s.ready = true → s.halted = false → ValidAccess s.cfg s.pc 4 → i.wellFormed = true →
    decodeBytes [s.readByte s.pc.toNat, s.readByte (s.pc.toNat + 1), s.readByte (s.pc.toNat + 2),
      s.readByte (s.pc.toNat + 3)] = .decoded (.instr i) [] →
    ∃ t, exec i s = .next t ∧ step s = .next { t with pc := s.pc + BitVec.ofNat 64 s.cfg.pcStep }

/-- 60_exceptions.md section 1: an illegal instruction, in either mode, writes no register, leaves `pc`, memory and `fault`
unchanged; that it is unimplemented depends on the word alone; the status the driver sees names the word (D14, D28, log 5). -/
def Obligations.RaiseChangesNoRegister : Prop :=
  ∀ (w : Word32) (c : IllegalCase), decodeWord w = .unimplemented w c →
    ∀ s : State, s.ready = true → s.halted = false →
      ∃ t, execute w s = .next t ∧ t.status = some (.illegalInstruction w) ∧ (∀ r, t.readReg r = s.readReg r) ∧
        t.pc = s.pc ∧ t.fault = s.fault ∧ (∀ a, t.readByte a = s.readByte a) ∧ t.mem = s.mem ∧ t.cfg = s.cfg

/-- 60_exceptions.md section 1, strict mode (D14): the hart halts, the diagnostic names opcode, funct3 and funct7, no increment of
`pc` follows, and from then on there is no `Fetch`, no `Execute` and no step. -/
def Obligations.IllegalHaltsInStrictMode : Prop :=
  ∀ (s : State) (c : IllegalCase), s.ready = true → s.halted = false → ValidAccess s.cfg s.pc 4 →
    s.cfg.illegalMode = .strict → decodeWord (s.wordAt s.pc.toNat) = .unimplemented (s.wordAt s.pc.toNat) c →
    ∃ t, step s = .next t ∧
      t = { s with halted := true, status := some (.illegalInstruction (s.wordAt s.pc.toNat)) } ∧
      (∃ r, t.status = some r ∧ r.diagnostic = some (opcodeOf (s.wordAt s.pc.toNat), funct3Of (s.wordAt s.pc.toNat),
        funct7Of (s.wordAt s.pc.toNat))) ∧
      fetch t = .fault .halted ∧ (∀ w, execute w t = .fault .halted) ∧ step t = .fault .halted

/-- 60_exceptions.md section 1, recoverable mode (D14): the status and its word are returned and nothing else changes; `pc` moves
only if the driver chooses to go on (log 3); the hart executes the next implemented word as if the illegal one had not been. -/
def Obligations.IllegalReportedInRecoverableMode : Prop :=
  ∀ (s : State) (c : IllegalCase), s.ready = true → s.halted = false → ValidAccess s.cfg s.pc 4 →
    s.cfg.illegalMode = .recoverable → decodeWord (s.wordAt s.pc.toNat) = .unimplemented (s.wordAt s.pc.toNat) c →
    ∃ t, step s = .next t ∧
      t = { s with
        status := some (.illegalInstruction (s.wordAt s.pc.toNat))
        pc := if s.cfg.goOn then s.pc + BitVec.ofNat 64 s.cfg.pcStep else s.pc } ∧
      ∀ w i, decodeWord w = .instr i → ∃ u u', execute w t = .next u ∧ execute w s = .next u' ∧
        (∀ r, u.readReg r = u'.readReg r) ∧ u.status = some .ok

/-- 60_exceptions.md section 1 (D14, U7): a step is never refused, and it stops exactly on a ready hart that has halted. That a hart
both halted and not ready still steps is log 8 (DEDUCED: section 3 orders the checks of `Execute` only). -/
def Obligations.StepStopsExactlyWhenHalted : Prop :=
  ∀ s : State, (∀ r, step s ≠ .refused r) ∧
    (step s = .fault .halted ↔ s.ready = true ∧ s.halted = true) ∧
    (¬ (s.ready = true ∧ s.halted = true) → ∃ t, step s = .next t)

/-- 60_exceptions.md section 1 (what the spec derives in R233 and R131): a step whose fetch faults sets `fault`, and its sentinel
word is illegal, so that in strict mode the same step halts the hart with opcode 0x7f; registers, `pc` and memory are as before.
In recoverable mode the word is reported. -/
def Obligations.FaultingFetchIsIllegal : Prop :=
  ∀ s : State, s.ready = true → s.halted = false → ¬ ValidAccess s.cfg s.pc 4 →
    ∃ t, step s = .next t ∧ t.fault = true ∧ t.status = some (.illegalInstruction 0xFFFF_FFFF) ∧ opcodeOf 0xFFFF_FFFF = 0x7f#7 ∧
      t.halted = decide (s.cfg.illegalMode = .strict) ∧ (∀ r, t.readReg r = s.readReg r) ∧ t.mem = s.mem ∧
      (s.cfg.illegalMode = .strict → t.pc = s.pc) ∧ t.cfg = s.cfg

/-! ## Invariants and rules of the whole machine -/

/-- From every state that meets the invariant (Safety.lean, this model's own), a step gives a state that meets it. -/
def Obligations.StepKeepsInv : Prop := ∀ s t : State, s.Inv → step s = .next t → t.Inv

/-- From every state that meets the invariant (Safety.lean, this model's own), any operation of the driver gives a state that meets
it, whatever its operands. `hart.deinit` is taken in by 70_reset_and_hazards.md section 2, "the other Hart state is not changed by
it" (log 11). That `ready` keeps its bus and the bus its memory rests on the `error` answers out of order (log 11, DEDUCED), that
memory stays inside the window on `memory.init` dropping the bytes past CAPACITY (log 12, DESIGN CHOICE). -/
def Obligations.DriverKeepsInv : Prop :=
  ∀ (op : DriverOp) (s t : State) (a : Answer), s.Inv → drive op s = .next (a, t) → t.Inv

/-- 10_state.md section 4 (D3): nothing but `hart.init` clears `fault`; in particular no step does. `hart.deinit` is taken in by
70_reset_and_hazards.md section 2, "the other Hart state is not changed by it" (log 11). -/
def Obligations.FaultStickyUntilReset : Prop :=
  (∀ (op : DriverOp) (s t : State) (a : Answer), s.fault = true → drive op s = .next (a, t) → t.fault = false →
    op = .hartInit true) ∧
  ∀ s t : State, s.fault = true → step s = .next t → t.fault = true

/-- 10_state.md section 4 (D14): `halted` is set only by executing an unimplemented word in strict mode on a ready hart, and
cleared only by `hart.init`. `hart.deinit` is taken in by 70_reset_and_hazards.md section 2, "the other Hart state is not changed
by it" (log 11). -/
def Obligations.OnlyIllegalInstructionHalts : Prop :=
  ∀ (op : DriverOp) (s t : State) (a : Answer), drive op s = .next (a, t) →
    (s.halted = false → t.halted = true → s.cfg.illegalMode = .strict ∧ s.ready = true ∧
      ∃ w c, op = .execute w ∧ decodeWord w = .unimplemented w c) ∧
    (s.halted = true → t.halted = false → op = .hartInit true)

/-- 10_state.md section 3 (D4): the operations of the core leave `pc` alone; only reset and the driver's own writes move it, and a
step moves it by PC_STEP or not at all (log 2). `hart.deinit` is taken in by 70_reset_and_hazards.md section 2, "the other Hart state
is not changed by it" (log 11). -/
def Obligations.PcMovesOnlyByDriver : Prop :=
  (∀ (op : DriverOp) (s t : State) (a : Answer), drive op s = .next (a, t) →
    t.pc = s.pc ∨ (op = .hartInit true ∧ t.pc = s.cfg.base) ∨
    (op = .advancePc ∧ t.pc.toNat = (s.pc.toNat + s.cfg.pcStep) % 2 ^ 64) ∨ ∃ p, op = .setPc p ∧ t.pc = p) ∧
  ∀ s t : State, step s = .next t → t.pc = s.pc ∨ t.pc.toNat = (s.pc.toNat + s.cfg.pcStep) % 2 ^ 64

/-- 45_not_implemented_families.md section 4 and 20_memory.md section 9: no instruction changes memory; only the driver's `store`,
`memory.init` and `memory.deinit` do; a step changes no byte. That nothing changes the configuration is the model's choice, log 1. -/
def Obligations.MemoryChangesOnlyByDriver : Prop :=
  (∀ (op : DriverOp) (s t : State) (a : Answer), drive op s = .next (a, t) → t.cfg = s.cfg ∧
    ((∀ x, t.readByte x = s.readByte x) ∨ (∃ p n v, op = .store p n v) ∨ (∃ b, op = .memoryInit b) ∨ op = .memoryDeinit)) ∧
  ∀ s t : State, step s = .next t → t.cfg = s.cfg ∧ t.mem = s.mem ∧ ∀ x, t.readByte x = s.readByte x

/-! ## Runs -/

/-- 40_fetch_decode_dispatch.md section 4, what the spec derives as R142 (a): with PC_STEP = 0 and an implemented word at `pc`, a
fetch loop of any length runs on, at the same `pc`, fetching the same word. -/
def Obligations.PcStepZeroRepeatsWord : Prop :=
  ∀ (n : Nat) (s : State) (i : Instr), s.cfg.pcStep = 0 → s.ready = true → s.halted = false → ValidAccess s.cfg s.pc 4 →
    decodeWord (s.wordAt s.pc.toNat) = .instr i →
    ∃ t : State, Host.Core.run core n s = .next t ∧ t.pc = s.pc ∧ t.halted = false ∧ t.fault = s.fault ∧
      fetch t = .next (s.wordAt s.pc.toNat, t)

/-- 40_fetch_decode_dispatch.md section 4, what the spec derives as R142 (b): with PC_STEP = 4, `pc = BASE` and a CAPACITY that is
a multiple of 4, every fetch loop comes to an illegal instruction within CAPACITY/4 + 1 steps, in its own steps, whatever memory holds and
whatever the status was. (A window
that is the whole address space is left out: there `pc` wraps back into it. NOTES.md says so.) -/
def Obligations.FetchLoopEndsInIllegal : Prop :=
  ∀ s : State, s.cfg.Valid → s.cfg.pcStep = 4 → s.cfg.capacity % 4 = 0 → s.pc = s.cfg.base → s.ready = true →
    s.halted = false → s.cfg.capacity ≠ 2 ^ 64 →
    ∃ k, 1 ≤ k ∧ k ≤ s.cfg.capacity / 4 + 1 ∧ ∃ (t : State) (w : Word32), Host.Core.run core k s = .next t ∧
      t.status = some (.illegalInstruction w) ∧ (s.cfg.illegalMode = .strict → t.halted = true) ∧ t.mem = s.mem

/-- 70_reset_and_hazards.md section 5 and 40_fetch_decode_dispatch.md section 4: any sequence of implemented words is legal and
runs to its end, with `pc`, memory and `fault` untouched, no status but `OK` on the way, and it has ended well (section 4 of the
former, D23) exactly if `fault` was clear. -/
def Obligations.WordStreamCompletes : Prop :=
  ∀ (ws : List Word32) (s : State), ws ≠ [] → s.ready = true → s.halted = false →
    (∀ w ∈ ws, ∃ i, decodeWord w = .instr i) →
    ∃ r, runWords ws 0 s = .next r ∧ r.ending = .exhausted ∧ r.passed = [] ∧ r.final.status = some .ok ∧ r.final.pc = s.pc ∧
      r.final.mem = s.mem ∧ r.final.fault = s.fault ∧ r.final.halted = false ∧ r.endedWell {} = !s.fault

/-- 70_reset_and_hazards.md section 4 (D23), case (b): a word-stream run ends at the first unimplemented word, where the driver
does not choose to go on (log 3) or the mode is strict, with the outcome "illegal instruction at word index i", `i` counted from 0;
the words after it are not executed; and it has not ended well, whatever the plan. -/
def Obligations.WordStreamStopsAtIllegal : Prop :=
  ∀ (ws rest : List Word32) (w : Word32) (c : IllegalCase) (s : State), s.ready = true → s.halted = false →
    (∀ x ∈ ws, ∃ i, decodeWord x = .instr i) → decodeWord w = .unimplemented w c →
    (s.cfg.goOn = false ∨ s.cfg.illegalMode = .strict) →
    ∃ u r, runWords ws 0 s = .next ⟨.exhausted, [], u⟩ ∧ runWords (ws ++ w :: rest) 0 s = .next r ∧
      r.ending = .stoppedAtWord ws.length (.illegalInstruction w) ∧ r.final = u.raiseIllegal w ∧ ∀ p, r.endedWell p = false

/-- 70_reset_and_hazards.md section 4 (D23), case (b), recoverable mode, where the driver chooses to go on (log 3): the words after an
unimplemented one are executed from the state in which the illegal one only left its status, and the run records that it passed it;
it has not ended well where nothing expects that, and where the plan does, it has if the run of the further words has (log 22). Where
there are no further words, that the run ends as an exhausted list is the model's choice too (log 22). -/
def Obligations.WordStreamGoesOn : Prop :=
  ∀ (ws rest : List Word32) (w : Word32) (c : IllegalCase) (s : State), s.ready = true → s.halted = false →
    (∀ x ∈ ws, ∃ i, decodeWord x = .instr i) → decodeWord w = .unimplemented w c →
    s.cfg.goOn = true → s.cfg.illegalMode = .recoverable →
    ∃ u r r', runWords ws 0 s = .next ⟨.exhausted, [], u⟩ ∧
      runWords rest (ws.length + 1) { u with status := some (.illegalInstruction w) } = .next r ∧
      runWords (ws ++ w :: rest) 0 s = .next r' ∧ r'.ending = r.ending ∧ r'.final = r.final ∧
      r'.passed = (ws.length, .illegalInstruction w) :: r.passed ∧ r'.endedWell {} = false ∧
      ∀ p : Plan, (ws.length, .illegalInstruction w) ∈ p.expected → r'.endedWell p = r.endedWell p

/-- 70_reset_and_hazards.md section 4 (D23), cases (c) and (d), and when a fetch-loop run has ended well (log 22). From a state that
is not stuck every run of `n` rounds ends. It ends after its `n` rounds, in the state the machine has then; or at a status other
than `OK`, in the state after that very round, the rounds after it not run; the statuses other than `OK` it went on from before that
are those it lists, each with its round. And where `n` rounds are done and the word at `pc` is unimplemented (the driver not going on from it, or the mode strict), a longer run ends
there, well if the plan named that word at that address and `fault` is clear, and not well under no plan. -/
def Obligations.FetchLoopRunEnds : Prop :=
  (∀ (n : Nat) (s : State), ¬ (s.ready = true ∧ s.halted = true) → ∃ r, runRounds n 0 s = .next r ∧
    ∃ k ≤ n, ((k = n ∧ r.ending = .stepCount ∧ Host.Core.run core n s = .next r.final) ∨
        (k < n ∧ ∃ q, r.ending = .stoppedAtRound k q ∧ q ≠ .ok ∧ r.final.status = some q ∧
          Host.Core.run core (k + 1) s = .next r.final)) ∧
      ∀ j q, (j, q) ∈ r.passed ↔ j < k ∧ q ≠ .ok ∧ ∃ t, Host.Core.run core (j + 1) s = .next t ∧ t.status = some q) ∧
  ∀ (n m : Nat) (s t : State) (w : Word32) (c : IllegalCase), runRounds n 0 s = .next ⟨.stepCount, [], t⟩ →
    t.ready = true → t.halted = false → ValidAccess t.cfg t.pc 4 → t.wordAt t.pc.toNat = w →
    decodeWord w = .unimplemented w c → (t.cfg.goOn = false ∨ t.cfg.illegalMode = .strict) →
    ∃ r, runRounds (n + m + 1) 0 s = .next r ∧ r.ending = .stoppedAtRound n (.illegalInstruction w) ∧ r.final = t.raiseIllegal w ∧
      r.endedWell { endsAt := some (t.pc, w) } = !t.fault ∧ r.endedWell {} = false

/-! ## The patterns of the table -/

/-- 30_encoding.md section 3, all 28 rows with every operand: the pattern, written out, decodes to its instruction. The numbers of
every row but ADDI and ADD are what the spec takes from standard RISC-V (D9, log 13), the shift selectors D7 and D8 (log 17). -/
def Obligations.PatternsDecode : Prop :=
  ∀ (rd rs1 rs2 sh5 : BitVec 5) (sh6 : BitVec 6) (imm : BitVec 12),
    decodeWord (imm ++ rs1 ++ 0b000#3 ++ rd ++ 0b0010011#7) = .instr (.addi rd.toFin rs1.toFin imm) ∧
    decodeWord (imm ++ rs1 ++ 0b010#3 ++ rd ++ 0b0010011#7) = .instr (.slti rd.toFin rs1.toFin imm) ∧
    decodeWord (imm ++ rs1 ++ 0b011#3 ++ rd ++ 0b0010011#7) = .instr (.sltiu rd.toFin rs1.toFin imm) ∧
    decodeWord (imm ++ rs1 ++ 0b100#3 ++ rd ++ 0b0010011#7) = .instr (.xori rd.toFin rs1.toFin imm) ∧
    decodeWord (imm ++ rs1 ++ 0b110#3 ++ rd ++ 0b0010011#7) = .instr (.ori rd.toFin rs1.toFin imm) ∧
    decodeWord (imm ++ rs1 ++ 0b111#3 ++ rd ++ 0b0010011#7) = .instr (.andi rd.toFin rs1.toFin imm) ∧
    decodeWord (0b000000#6 ++ sh6 ++ rs1 ++ 0b001#3 ++ rd ++ 0b0010011#7) = .instr (.slli rd.toFin rs1.toFin sh6.toNat) ∧
    decodeWord (0b000000#6 ++ sh6 ++ rs1 ++ 0b101#3 ++ rd ++ 0b0010011#7) = .instr (.srli rd.toFin rs1.toFin sh6.toNat) ∧
    decodeWord (0b010000#6 ++ sh6 ++ rs1 ++ 0b101#3 ++ rd ++ 0b0010011#7) = .instr (.srai rd.toFin rs1.toFin sh6.toNat) ∧
    decodeWord (imm ++ rs1 ++ 0b000#3 ++ rd ++ 0b0011011#7) = .instr (.addiw rd.toFin rs1.toFin imm) ∧
    decodeWord (0b0000000#7 ++ sh5 ++ rs1 ++ 0b001#3 ++ rd ++ 0b0011011#7) = .instr (.slliw rd.toFin rs1.toFin sh5.toNat) ∧
    decodeWord (0b0000000#7 ++ sh5 ++ rs1 ++ 0b101#3 ++ rd ++ 0b0011011#7) = .instr (.srliw rd.toFin rs1.toFin sh5.toNat) ∧
    decodeWord (0b0100000#7 ++ sh5 ++ rs1 ++ 0b101#3 ++ rd ++ 0b0011011#7) = .instr (.sraiw rd.toFin rs1.toFin sh5.toNat) ∧
    decodeWord (0b0000000#7 ++ rs2 ++ rs1 ++ 0b000#3 ++ rd ++ 0b0110011#7) = .instr (.add rd.toFin rs1.toFin rs2.toFin) ∧
    decodeWord (0b0100000#7 ++ rs2 ++ rs1 ++ 0b000#3 ++ rd ++ 0b0110011#7) = .instr (.sub rd.toFin rs1.toFin rs2.toFin) ∧
    decodeWord (0b0000000#7 ++ rs2 ++ rs1 ++ 0b001#3 ++ rd ++ 0b0110011#7) = .instr (.sll rd.toFin rs1.toFin rs2.toFin) ∧
    decodeWord (0b0000000#7 ++ rs2 ++ rs1 ++ 0b010#3 ++ rd ++ 0b0110011#7) = .instr (.slt rd.toFin rs1.toFin rs2.toFin) ∧
    decodeWord (0b0000000#7 ++ rs2 ++ rs1 ++ 0b011#3 ++ rd ++ 0b0110011#7) = .instr (.sltu rd.toFin rs1.toFin rs2.toFin) ∧
    decodeWord (0b0000000#7 ++ rs2 ++ rs1 ++ 0b100#3 ++ rd ++ 0b0110011#7) = .instr (.xor rd.toFin rs1.toFin rs2.toFin) ∧
    decodeWord (0b0000000#7 ++ rs2 ++ rs1 ++ 0b101#3 ++ rd ++ 0b0110011#7) = .instr (.srl rd.toFin rs1.toFin rs2.toFin) ∧
    decodeWord (0b0100000#7 ++ rs2 ++ rs1 ++ 0b101#3 ++ rd ++ 0b0110011#7) = .instr (.sra rd.toFin rs1.toFin rs2.toFin) ∧
    decodeWord (0b0000000#7 ++ rs2 ++ rs1 ++ 0b110#3 ++ rd ++ 0b0110011#7) = .instr (.or rd.toFin rs1.toFin rs2.toFin) ∧
    decodeWord (0b0000000#7 ++ rs2 ++ rs1 ++ 0b111#3 ++ rd ++ 0b0110011#7) = .instr (.and rd.toFin rs1.toFin rs2.toFin) ∧
    decodeWord (0b0000000#7 ++ rs2 ++ rs1 ++ 0b000#3 ++ rd ++ 0b0111011#7) = .instr (.addw rd.toFin rs1.toFin rs2.toFin) ∧
    decodeWord (0b0100000#7 ++ rs2 ++ rs1 ++ 0b000#3 ++ rd ++ 0b0111011#7) = .instr (.subw rd.toFin rs1.toFin rs2.toFin) ∧
    decodeWord (0b0000000#7 ++ rs2 ++ rs1 ++ 0b001#3 ++ rd ++ 0b0111011#7) = .instr (.sllw rd.toFin rs1.toFin rs2.toFin) ∧
    decodeWord (0b0000000#7 ++ rs2 ++ rs1 ++ 0b101#3 ++ rd ++ 0b0111011#7) = .instr (.srlw rd.toFin rs1.toFin rs2.toFin) ∧
    decodeWord (0b0100000#7 ++ rs2 ++ rs1 ++ 0b101#3 ++ rd ++ 0b0111011#7) = .instr (.sraw rd.toFin rs1.toFin rs2.toFin)
end

