-- ==== Sys2Proof/Laws/Decode.lean ====
section
/-! SUPPORT. What the encoder puts into each field of a word, and when a word fits a row of the opcode table. -/

namespace Sys2Proof

/-! ## The fields of an assembled word -/

theorem opcodeOf_wordI (e : Enc) (rd rs1 : Reg) (imm : BitVec 12) : opcodeOf (e.wordI rd rs1 imm) = e.opcode := by
  simp only [opcodeOf, Enc.wordI]; ext k hk
  simp only [BitVec.getElem_extractLsb', BitVec.getLsbD_append]
  simp [hk]

theorem funct3Of_wordI (e : Enc) (rd rs1 : Reg) (imm : BitVec 12) : funct3Of (e.wordI rd rs1 imm) = e.funct3 := by
  simp only [funct3Of, Enc.wordI]; ext k hk
  simp only [BitVec.getElem_extractLsb', BitVec.getLsbD_append]
  simp [show ¬ 12 + k < 7 by omega, show ¬ 12 + k - 7 < 5 by omega, show 12 + k - 7 - 5 = k by omega, hk]

theorem imm12Of_wordI (e : Enc) (rd rs1 : Reg) (imm : BitVec 12) : imm12Of (e.wordI rd rs1 imm) = imm := by
  simp only [imm12Of, Enc.wordI]; ext k hk
  simp only [BitVec.getElem_extractLsb', BitVec.getLsbD_append]
  simp [show ¬ 20 + k < 7 by omega, show ¬ 20 + k - 7 < 5 by omega, show ¬ 20 + k - 7 - 5 < 3 by omega,
    show ¬ 20 + k - 7 - 5 - 3 < 5 by omega, show 20 + k - 7 - 5 - 3 - 5 = k by omega, hk]

theorem rdBits_wordI (e : Enc) (rd rs1 : Reg) (imm : BitVec 12) :
    (e.wordI rd rs1 imm).extractLsb' 7 5 = regBits rd := by
  simp only [Enc.wordI]; ext k hk
  simp only [BitVec.getElem_extractLsb', BitVec.getLsbD_append]
  simp [show ¬ 7 + k < 7 by omega, show 7 + k - 7 = k by omega, hk]

theorem rs1Bits_wordI (e : Enc) (rd rs1 : Reg) (imm : BitVec 12) :
    (e.wordI rd rs1 imm).extractLsb' 15 5 = regBits rs1 := by
  simp only [Enc.wordI]; ext k hk
  simp only [BitVec.getElem_extractLsb', BitVec.getLsbD_append]
  simp [show ¬ 15 + k < 7 by omega, show ¬ 15 + k - 7 < 5 by omega, show ¬ 15 + k - 7 - 5 < 3 by omega,
    show 15 + k - 7 - 5 - 3 = k by omega, hk]

theorem rdOf_wordI (e : Enc) (rd rs1 : Reg) (imm : BitVec 12) : rdOf (e.wordI rd rs1 imm) = rd := by
  rw [rdOf, rdBits_wordI]; rfl

theorem rs1Of_wordI (e : Enc) (rd rs1 : Reg) (imm : BitVec 12) : rs1Of (e.wordI rd rs1 imm) = rs1 := by
  rw [rs1Of, rs1Bits_wordI]; rfl

/-! ## The parts of `word[31:20]` -/

theorem upper_eq_imm12 (w : Word32) (k n : Nat) (h : k + n ≤ 12) :
    w.extractLsb' (20 + k) n = (imm12Of w).extractLsb' k n := by
  simp only [imm12Of]; ext j hj
  simp [show k + j < 12 by omega, Nat.add_assoc]

theorem funct7Of_eq (w : Word32) : funct7Of w = (imm12Of w).extractLsb' 5 7 := upper_eq_imm12 w 5 7 (by omega)
theorem sel6Of_eq (w : Word32) : sel6Of w = (imm12Of w).extractLsb' 6 6 := upper_eq_imm12 w 6 6 (by omega)
theorem rs2Bits_eq (w : Word32) : w.extractLsb' 20 5 = (imm12Of w).extractLsb' 0 5 := upper_eq_imm12 w 0 5 (by omega)
theorem shamt6Bits_eq (w : Word32) : w.extractLsb' 20 6 = (imm12Of w).extractLsb' 0 6 := upper_eq_imm12 w 0 6 (by omega)

theorem high_of_append {m n : Nat} (a : BitVec m) (b : BitVec n) : (a ++ b).extractLsb' n m = a := by
  ext k hk; simp [BitVec.getLsbD_append, hk]

theorem low_of_append {m n : Nat} (a : BitVec m) (b : BitVec n) : (a ++ b).extractLsb' 0 n = b := by
  ext k hk; simp [BitVec.getLsbD_append, hk]

/-! ## The rows -/

theorem accepts_iff (e : Enc) (w : Word32) :
    e.accepts w = true ↔ opcodeOf w = e.opcode ∧ funct3Of w = e.funct3 ∧ e.upper.accepts w = true := by
  simp [Enc.accepts, and_assoc]

theorem accepts_wordI (e : Enc) (rd rs1 : Reg) (imm : BitVec 12) (h : e.upper = .free) :
    e.accepts (e.wordI rd rs1 imm) = true := by
  rw [accepts_iff]; exact ⟨opcodeOf_wordI .., funct3Of_wordI .., by rw [h]; rfl⟩

theorem accepts_wordSh64 (e : Enc) (v : BitVec 6) (rd rs1 : Reg) (sh : Nat) (h : e.upper = .sel6 v) :
    e.accepts (e.wordSh64 rd rs1 sh) = true := by
  rw [accepts_iff]
  refine ⟨opcodeOf_wordI .., funct3Of_wordI .., ?_⟩
  rw [h]
  simp only [Upper.accepts, Enc.wordSh64, Enc.sel6, h, sel6Of_eq, imm12Of_wordI, beq_iff_eq]
  exact high_of_append v _

theorem accepts_wordSh32 (e : Enc) (v : BitVec 7) (rd rs1 : Reg) (sh : Nat) (h : e.upper = .sel7 v) :
    e.accepts (e.wordSh32 rd rs1 sh) = true := by
  rw [accepts_iff]
  refine ⟨opcodeOf_wordI .., funct3Of_wordI .., ?_⟩
  rw [h]
  simp only [Upper.accepts, Enc.wordSh32, Enc.sel7, h, funct7Of_eq, imm12Of_wordI, beq_iff_eq]
  exact high_of_append v _

theorem accepts_wordR (e : Enc) (v : BitVec 7) (rd rs1 rs2 : Reg) (h : e.upper = .sel7 v) :
    e.accepts (e.wordR rd rs1 rs2) = true := by
  rw [accepts_iff]
  refine ⟨opcodeOf_wordI .., funct3Of_wordI .., ?_⟩
  rw [h]
  simp only [Upper.accepts, Enc.wordR, Enc.sel7, h, funct7Of_eq, imm12Of_wordI, beq_iff_eq]
  exact high_of_append v _

theorem mem_all (m : Mnemonic) : m ∈ Mnemonic.all := by cases m <;> decide

end Sys2Proof
end

