-- ==== Sys2Proof/Laws/State.lean ====
section
/-! SUPPORT. One lemma for each field and each update of State, by which later proofs do without unfolding an update; reading a
register after writing one. -/

namespace Sys2Proof.Machine

/-! ## writeReg -/

@[simp] theorem writeReg_pc (s : State) (r : Reg) (v : Word) : (s.writeReg r v).pc = s.pc := by
  unfold State.writeReg; split <;> rfl
@[simp] theorem writeReg_fault (s : State) (r : Reg) (v : Word) : (s.writeReg r v).fault = s.fault := by
  unfold State.writeReg; split <;> rfl
@[simp] theorem writeReg_halted (s : State) (r : Reg) (v : Word) : (s.writeReg r v).halted = s.halted := by
  unfold State.writeReg; split <;> rfl
@[simp] theorem writeReg_ready (s : State) (r : Reg) (v : Word) : (s.writeReg r v).ready = s.ready := by
  unfold State.writeReg; split <;> rfl
@[simp] theorem writeReg_mem (s : State) (r : Reg) (v : Word) : (s.writeReg r v).mem = s.mem := by
  unfold State.writeReg; split <;> rfl
@[simp] theorem writeReg_busBound (s : State) (r : Reg) (v : Word) : (s.writeReg r v).busBound = s.busBound := by
  unfold State.writeReg; split <;> rfl
@[simp] theorem writeReg_memLive (s : State) (r : Reg) (v : Word) : (s.writeReg r v).memLive = s.memLive := by
  unfold State.writeReg; split <;> rfl
@[simp] theorem writeReg_image (s : State) (r : Reg) (v : Word) : (s.writeReg r v).image = s.image := by
  unfold State.writeReg; split <;> rfl
@[simp] theorem writeReg_status (s : State) (r : Reg) (v : Word) : (s.writeReg r v).status = s.status := by
  unfold State.writeReg; split <;> rfl
@[simp] theorem writeReg_cfg (s : State) (r : Reg) (v : Word) : (s.writeReg r v).cfg = s.cfg := by
  unfold State.writeReg; split <;> rfl

/-! ## setStatus -/

@[simp] theorem setStatus_regs (s : State) (r : Status) : (s.setStatus r).regs = s.regs := rfl
@[simp] theorem setStatus_pc (s : State) (r : Status) : (s.setStatus r).pc = s.pc := rfl
@[simp] theorem setStatus_fault (s : State) (r : Status) : (s.setStatus r).fault = s.fault := rfl
@[simp] theorem setStatus_halted (s : State) (r : Status) : (s.setStatus r).halted = s.halted := rfl
@[simp] theorem setStatus_ready (s : State) (r : Status) : (s.setStatus r).ready = s.ready := rfl
@[simp] theorem setStatus_mem (s : State) (r : Status) : (s.setStatus r).mem = s.mem := rfl
@[simp] theorem setStatus_busBound (s : State) (r : Status) : (s.setStatus r).busBound = s.busBound := rfl
@[simp] theorem setStatus_memLive (s : State) (r : Status) : (s.setStatus r).memLive = s.memLive := rfl
@[simp] theorem setStatus_image (s : State) (r : Status) : (s.setStatus r).image = s.image := rfl
@[simp] theorem setStatus_cfg (s : State) (r : Status) : (s.setStatus r).cfg = s.cfg := rfl

/-! ## setFault -/

@[simp] theorem setFault_regs (s : State) : s.setFault.regs = s.regs := rfl
@[simp] theorem setFault_pc (s : State) : s.setFault.pc = s.pc := rfl
@[simp] theorem setFault_halted (s : State) : s.setFault.halted = s.halted := rfl
@[simp] theorem setFault_ready (s : State) : s.setFault.ready = s.ready := rfl
@[simp] theorem setFault_mem (s : State) : s.setFault.mem = s.mem := rfl
@[simp] theorem setFault_busBound (s : State) : s.setFault.busBound = s.busBound := rfl
@[simp] theorem setFault_memLive (s : State) : s.setFault.memLive = s.memLive := rfl
@[simp] theorem setFault_image (s : State) : s.setFault.image = s.image := rfl
@[simp] theorem setFault_status (s : State) : s.setFault.status = s.status := rfl
@[simp] theorem setFault_cfg (s : State) : s.setFault.cfg = s.cfg := rfl

/-! ## setHalted -/

@[simp] theorem setHalted_regs (s : State) : s.setHalted.regs = s.regs := rfl
@[simp] theorem setHalted_pc (s : State) : s.setHalted.pc = s.pc := rfl
@[simp] theorem setHalted_fault (s : State) : s.setHalted.fault = s.fault := rfl
@[simp] theorem setHalted_ready (s : State) : s.setHalted.ready = s.ready := rfl
@[simp] theorem setHalted_mem (s : State) : s.setHalted.mem = s.mem := rfl
@[simp] theorem setHalted_busBound (s : State) : s.setHalted.busBound = s.busBound := rfl
@[simp] theorem setHalted_memLive (s : State) : s.setHalted.memLive = s.memLive := rfl
@[simp] theorem setHalted_image (s : State) : s.setHalted.image = s.image := rfl
@[simp] theorem setHalted_status (s : State) : s.setHalted.status = s.status := rfl
@[simp] theorem setHalted_cfg (s : State) : s.setHalted.cfg = s.cfg := rfl

/-! ## advancePc -/

@[simp] theorem advancePc_regs (s : State) : s.advancePc.regs = s.regs := rfl
@[simp] theorem advancePc_fault (s : State) : s.advancePc.fault = s.fault := rfl
@[simp] theorem advancePc_halted (s : State) : s.advancePc.halted = s.halted := rfl
@[simp] theorem advancePc_ready (s : State) : s.advancePc.ready = s.ready := rfl
@[simp] theorem advancePc_mem (s : State) : s.advancePc.mem = s.mem := rfl
@[simp] theorem advancePc_busBound (s : State) : s.advancePc.busBound = s.busBound := rfl
@[simp] theorem advancePc_memLive (s : State) : s.advancePc.memLive = s.memLive := rfl
@[simp] theorem advancePc_image (s : State) : s.advancePc.image = s.image := rfl
@[simp] theorem advancePc_status (s : State) : s.advancePc.status = s.status := rfl
@[simp] theorem advancePc_cfg (s : State) : s.advancePc.cfg = s.cfg := rfl

@[simp] theorem setStatus_status (s : State) (r : Status) : (s.setStatus r).status = some r := rfl
@[simp] theorem setFault_fault (s : State) : s.setFault.fault = true := rfl
@[simp] theorem setHalted_halted (s : State) : s.setHalted.halted = true := rfl
@[simp] theorem advancePc_pc (s : State) : s.advancePc.pc = s.pc + BitVec.ofNat 64 s.cfg.pcStep := rfl

/-! ## afterExecute: `pc` is the only field it may change -/

@[simp] theorem afterExecute_regs (s : State) : s.afterExecute.regs = s.regs := by
  unfold State.afterExecute; split <;> rfl
@[simp] theorem afterExecute_fault (s : State) : s.afterExecute.fault = s.fault := by
  unfold State.afterExecute; split <;> rfl
@[simp] theorem afterExecute_halted (s : State) : s.afterExecute.halted = s.halted := by
  unfold State.afterExecute; split <;> rfl
@[simp] theorem afterExecute_ready (s : State) : s.afterExecute.ready = s.ready := by
  unfold State.afterExecute; split <;> rfl
@[simp] theorem afterExecute_mem (s : State) : s.afterExecute.mem = s.mem := by
  unfold State.afterExecute; split <;> rfl
@[simp] theorem afterExecute_busBound (s : State) : s.afterExecute.busBound = s.busBound := by
  unfold State.afterExecute; split <;> rfl
@[simp] theorem afterExecute_memLive (s : State) : s.afterExecute.memLive = s.memLive := by
  unfold State.afterExecute; split <;> rfl
@[simp] theorem afterExecute_image (s : State) : s.afterExecute.image = s.image := by
  unfold State.afterExecute; split <;> rfl
@[simp] theorem afterExecute_status (s : State) : s.afterExecute.status = s.status := by
  unfold State.afterExecute; split <;> rfl
@[simp] theorem afterExecute_cfg (s : State) : s.afterExecute.cfg = s.cfg := by
  unfold State.afterExecute; split <;> rfl

theorem afterExecute_pc (s : State) :
    s.afterExecute.pc = if s.goesOn then s.pc + BitVec.ofNat 64 s.cfg.pcStep else s.pc := by
  unfold State.afterExecute; split <;> rfl

/-! ## raiseIllegal: `halted` and `status` are the only fields it may change -/

@[simp] theorem raiseIllegal_regs (s : State) (w : Word32) : (s.raiseIllegal w).regs = s.regs := by
  unfold State.raiseIllegal; split <;> rfl
@[simp] theorem raiseIllegal_pc (s : State) (w : Word32) : (s.raiseIllegal w).pc = s.pc := by
  unfold State.raiseIllegal; split <;> rfl
@[simp] theorem raiseIllegal_fault (s : State) (w : Word32) : (s.raiseIllegal w).fault = s.fault := by
  unfold State.raiseIllegal; split <;> rfl
@[simp] theorem raiseIllegal_ready (s : State) (w : Word32) : (s.raiseIllegal w).ready = s.ready := by
  unfold State.raiseIllegal; split <;> rfl
@[simp] theorem raiseIllegal_mem (s : State) (w : Word32) : (s.raiseIllegal w).mem = s.mem := by
  unfold State.raiseIllegal; split <;> rfl
@[simp] theorem raiseIllegal_busBound (s : State) (w : Word32) : (s.raiseIllegal w).busBound = s.busBound := by
  unfold State.raiseIllegal; split <;> rfl
@[simp] theorem raiseIllegal_memLive (s : State) (w : Word32) : (s.raiseIllegal w).memLive = s.memLive := by
  unfold State.raiseIllegal; split <;> rfl
@[simp] theorem raiseIllegal_image (s : State) (w : Word32) : (s.raiseIllegal w).image = s.image := by
  unfold State.raiseIllegal; split <;> rfl
@[simp] theorem raiseIllegal_cfg (s : State) (w : Word32) : (s.raiseIllegal w).cfg = s.cfg := by
  unfold State.raiseIllegal; split <;> rfl

@[simp] theorem raiseIllegal_status (s : State) (w : Word32) :
    (s.raiseIllegal w).status = some (.illegalInstruction w) := by
  unfold State.raiseIllegal; split <;> rfl

theorem raiseIllegal_halted (s : State) (w : Word32) :
    (s.raiseIllegal w).halted = (s.halted || decide (s.cfg.illegalMode = .strict)) := by
  unfold State.raiseIllegal; split <;> simp_all

/-! ## hartInit -/

@[simp] theorem hartInit_mem (s : State) : s.hartInit.mem = s.mem := rfl
@[simp] theorem hartInit_busBound (s : State) : s.hartInit.busBound = s.busBound := rfl
@[simp] theorem hartInit_memLive (s : State) : s.hartInit.memLive = s.memLive := rfl
@[simp] theorem hartInit_image (s : State) : s.hartInit.image = s.image := rfl
@[simp] theorem hartInit_cfg (s : State) : s.hartInit.cfg = s.cfg := rfl
@[simp] theorem hartInit_pc (s : State) : s.hartInit.pc = s.cfg.base := rfl
@[simp] theorem hartInit_fault (s : State) : s.hartInit.fault = false := rfl
@[simp] theorem hartInit_halted (s : State) : s.hartInit.halted = false := rfl
@[simp] theorem hartInit_ready (s : State) : s.hartInit.ready = true := rfl
@[simp] theorem hartInit_status (s : State) : s.hartInit.status = none := rfl

/-! ## Registers -/

@[simp] theorem readReg_zero (s : State) : s.readReg 0 = 0 := rfl

theorem readReg_congr {s t : State} (h : t.regs = s.regs) (r : Reg) : t.readReg r = s.readReg r := by
  unfold State.readReg; rw [h]

@[simp] theorem readReg_setStatus (s : State) (q : Status) (r : Reg) : (s.setStatus q).readReg r = s.readReg r := rfl
@[simp] theorem readReg_setFault (s : State) (r : Reg) : s.setFault.readReg r = s.readReg r := rfl

@[simp] theorem readReg_afterExecute (s : State) (r : Reg) : s.afterExecute.readReg r = s.readReg r :=
  readReg_congr (afterExecute_regs s) r

@[simp] theorem readReg_raiseIllegal (s : State) (w : Word32) (r : Reg) : (s.raiseIllegal w).readReg r = s.readReg r :=
  readReg_congr (raiseIllegal_regs s w) r

theorem readReg_writeReg_same (s : State) (r : Reg) (v : Word) (h : r ≠ 0) : (s.writeReg r v).readReg r = v := by
  simp [State.readReg, State.writeReg, h]

theorem readReg_writeReg_other (s : State) (r q : Reg) (v : Word) (h : q ≠ r ∨ r = 0) :
    (s.writeReg r v).readReg q = s.readReg q := by
  unfold State.readReg State.writeReg
  by_cases hr : r = 0
  · simp [hr]
  · have hq : q ≠ r := h.resolve_right hr
    have : r.val ≠ q.val := fun e => hq (Fin.ext e.symm)
    simp [hr, Vector.getElem_set_ne, this]

theorem slotZero_writeReg (s : State) (r : Reg) (v : Word) : (s.writeReg r v).regs[0] = s.regs[0] := by
  unfold State.writeReg
  split
  · rfl
  · rename_i h
    have : r.val ≠ 0 := fun e => h (Fin.ext e)
    simp [Vector.getElem_set_ne, this]

/-! ## The bytes of memory -/

theorem readByte_congr {s t : State} (hm : t.mem = s.mem) (hi : t.image = s.image) (hc : t.cfg = s.cfg) (a : Nat) :
    t.readByte a = s.readByte a := by
  unfold State.readByte; rw [hm, hi, hc]

@[simp] theorem readByte_writeReg (s : State) (r : Reg) (v : Word) (a : Nat) : (s.writeReg r v).readByte a = s.readByte a :=
  readByte_congr (by simp) (by simp) (by simp) a

@[simp] theorem readByte_setStatus (s : State) (q : Status) (a : Nat) : (s.setStatus q).readByte a = s.readByte a := rfl

@[simp] theorem readByte_afterExecute (s : State) (a : Nat) : s.afterExecute.readByte a = s.readByte a :=
  readByte_congr (by simp) (by simp) (by simp) a

@[simp] theorem readByte_raiseIllegal (s : State) (w : Word32) (a : Nat) :
    (s.raiseIllegal w).readByte a = s.readByte a :=
  readByte_congr (by simp) (by simp) (by simp) a

end Sys2Proof.Machine
end

