-- ==== Sys2Proof/Laws/Memory.lean ====
section
/-! SUPPORT. The laws of the memory image: reading after writing, the canonical form kept by every operation, the bytes an access
touches. -/

namespace Sys2Proof.Machine

/-! ## insert -/

theorem lookup_insert (m : Memory) (a : Nat) (v : Byte) (a' : Nat) :
    Memory.lookup (Memory.insert m a v) a' = if a' = a then some v else Memory.lookup m a' := by
  induction m with
  | nil => simp [Memory.insert, Memory.lookup]
  | cons c m ih =>
    obtain ⟨k, b⟩ := c
    by_cases h1 : a < k
    · simp [Memory.insert, Memory.lookup, h1]
    · by_cases h2 : a = k
      · subst h2
        simp only [Memory.insert, Memory.lookup, lt_irrefl, if_false, if_true]
        split <;> simp_all
      · simp only [Memory.insert, Memory.lookup, h1, h2, if_false, ih]
        by_cases h3 : a' = a
        · simp [h3, h2]
        · simp [h3]

theorem mem_insert {m : Memory} {a : Nat} {v : Byte} {c : Host.Cell} (h : c ∈ Memory.insert m a v) :
    c = (a, v) ∨ c ∈ m := by
  induction m with
  | nil => simpa [Memory.insert] using h
  | cons d m ih =>
    obtain ⟨k, b⟩ := d
    unfold Memory.insert at h
    split at h
    · simpa using h
    · split at h
      · rename_i hk
        subst hk
        rcases List.mem_cons.mp h with h | h
        · exact .inl h
        · exact .inr (List.mem_cons_of_mem _ h)
      · rcases List.mem_cons.mp h with h | h
        · exact .inr (h ▸ List.mem_cons_self)
        · rcases ih h with h | h
          · exact .inl h
          · exact .inr (List.mem_cons_of_mem _ h)

theorem insert_wf {m : Memory} (h : Memory.wf m) (a : Nat) (v : Byte) : Memory.wf (Memory.insert m a v) := by
  induction m with
  | nil => simp [Memory.insert, Memory.wf]
  | cons d m ih =>
    obtain ⟨k, b⟩ := d
    obtain ⟨h1, h2⟩ := List.pairwise_cons.mp h
    unfold Memory.insert
    split
    · rename_i hk
      refine List.pairwise_cons.mpr ⟨fun c hc => ?_, h⟩
      rcases List.mem_cons.mp hc with hc | hc
      · subst hc; exact hk
      · exact lt_trans hk (h1 c hc)
    · split
      · exact List.pairwise_cons.mpr ⟨h1, h2⟩
      · rename_i hlt hne
        refine List.pairwise_cons.mpr ⟨fun c hc => ?_, ih h2⟩
        rcases mem_insert hc with hc | hc
        · subst hc; show k < a; omega
        · exact h1 c hc

/-! ## putLE -/

theorem putLE_wf {m : Memory} (h : Memory.wf m) (a v n : Nat) : Memory.wf (Memory.putLE m a v n) := by
  induction n generalizing m a v with
  | zero => exact h
  | succ n ih => exact ih (insert_wf h _ _) _ _

theorem mem_putLE {m : Memory} {a v n : Nat} {c : Host.Cell} (h : c ∈ Memory.putLE m a v n) :
    (a ≤ c.1 ∧ c.1 < a + n) ∨ c ∈ m := by
  induction n generalizing m a v with
  | zero => exact .inr h
  | succ n ih =>
    rcases ih h with h | h
    · exact .inl (by omega)
    · rcases mem_insert h with h | h
      · subst h; exact .inl (by simp)
      · exact .inr h

theorem lookup_putLE_outside (m : Memory) (a v n a' : Nat) (h : a' < a ∨ a + n ≤ a') :
    Memory.lookup (Memory.putLE m a v n) a' = Memory.lookup m a' := by
  induction n generalizing m a v with
  | zero => rfl
  | succ n ih =>
    rw [Memory.putLE, ih _ _ _ (by omega), lookup_insert, if_neg (by omega)]

theorem lookup_putLE_inside (m : Memory) (a v n j : Nat) (h : j < n) :
    Memory.lookup (Memory.putLE m a v n) (a + j) = some (BitVec.ofNat 8 (v / 256 ^ j)) := by
  induction n generalizing m a v j with
  | zero => omega
  | succ n ih =>
    cases j with
    | zero => rw [Memory.putLE, lookup_putLE_outside _ _ _ _ _ (by omega), lookup_insert]; simp
    | succ j =>
      rw [Memory.putLE, show a + (j + 1) = a + 1 + j by omega, ih _ _ _ _ (by omega), Nat.div_div_eq_div_mul, pow_succ']

/-! ## ofBytes -/

theorem mem_ofBytes {a : Nat} {bs : List Byte} {c : Host.Cell} (h : c ∈ Memory.ofBytes a bs) :
    a ≤ c.1 ∧ c.1 < a + bs.length := by
  induction bs generalizing a with
  | nil => simp [Memory.ofBytes] at h
  | cons b bs ih =>
    rcases List.mem_cons.mp h with h | h
    · subst h; simp
    · have := ih h; simp only [List.length_cons]; omega

theorem ofBytes_wf (a : Nat) (bs : List Byte) : Memory.wf (Memory.ofBytes a bs) := by
  induction bs generalizing a with
  | nil => exact List.Pairwise.nil
  | cons b bs ih =>
    refine List.pairwise_cons.mpr ⟨fun c hc => ?_, ih _⟩
    have := mem_ofBytes hc
    show a < c.1; omega

theorem lookup_ofBytes (a : Nat) (bs : List Byte) (j : Nat) :
    Memory.lookup (Memory.ofBytes a bs) (a + j) = bs[j]? := by
  induction bs generalizing a j with
  | nil => simp [Memory.ofBytes, Memory.lookup]
  | cons b bs ih =>
    cases j with
    | zero => simp [Memory.ofBytes, Memory.lookup]
    | succ j =>
      rw [Memory.ofBytes, Memory.lookup, if_neg (by omega), show a + (j + 1) = a + 1 + j by omega, ih]
      simp

/-! ## The access primitives -/

theorem accessOk_iff (c : Config) (addr : Word) (n : Nat) : Config.accessOk c addr n = true ↔ ValidAccess c addr n := by
  simp [Config.accessOk, ValidAccess, or_assoc, and_assoc]

theorem memRead_valid {s : State} {addr : Word} {n : Nat} (h : ValidAccess s.cfg addr n) :
    s.memRead addr n = (BitVec.ofNat 64 (s.readLE addr.toNat n), s) := by
  simp [State.memRead, (accessOk_iff _ _ _).mpr h]

theorem memRead_invalid {s : State} {addr : Word} {n : Nat} (h : ¬ ValidAccess s.cfg addr n) :
    s.memRead addr n = (sentinel, s.setFault) := by
  simp [State.memRead, mt (accessOk_iff _ _ _).mp h]

theorem memWrite_valid {s : State} {addr : Word} {n : Nat} (v : Word) (h : ValidAccess s.cfg addr n) :
    s.memWrite addr n v = (.ok, { s with mem := Memory.putLE s.mem addr.toNat v.toNat n }) := by
  simp [State.memWrite, (accessOk_iff _ _ _).mpr h]

theorem memWrite_invalid {s : State} {addr : Word} {n : Nat} (v : Word) (h : ¬ ValidAccess s.cfg addr n) :
    s.memWrite addr n v = (.error, s) := by
  simp [State.memWrite, mt (accessOk_iff _ _ _).mp h]

/-- Everything a load can do: the state it leaves is the old one or the old one with the fault flag set. -/
theorem memRead_cases (s : State) (addr : Word) (n : Nat) :
    (ValidAccess s.cfg addr n ∧ (s.memRead addr n).2 = s) ∨
    (¬ ValidAccess s.cfg addr n ∧ s.memRead addr n = (sentinel, s.setFault)) := by
  by_cases h : ValidAccess s.cfg addr n
  · exact .inl ⟨h, by rw [memRead_valid h]⟩
  · exact .inr ⟨h, memRead_invalid h⟩

theorem readLE_lt (s : State) (a n : Nat) : s.readLE a n < 256 ^ n := by
  induction n generalizing a with
  | zero => simp [State.readLE]
  | succ n ih =>
    have h1 := ih (a + 1)
    have h2 : (s.readByte a).toNat < 256 := (s.readByte a).isLt
    rw [State.readLE, pow_succ']; omega

theorem readLE_congr {s t : State} {a n : Nat} (h : ∀ j < n, t.readByte (a + j) = s.readByte (a + j)) :
    t.readLE a n = s.readLE a n := by
  induction n generalizing a with
  | zero => rfl
  | succ n ih =>
    rw [State.readLE, State.readLE, show t.readByte a = s.readByte a from h 0 (by omega),
      ih fun j hj => by have := h (j + 1) (by omega); rwa [show a + (j + 1) = a + 1 + j by omega] at this]

/-! ## The canonical form, operation by operation -/

theorem memRead_wf {s : State} (h : Memory.wf s.mem) (addr : Word) (n : Nat) : Memory.wf (s.memRead addr n).2.mem := by
  unfold State.memRead; split <;> exact h

theorem memWrite_wf {s : State} (h : Memory.wf s.mem) (addr : Word) (n : Nat) (v : Word) :
    Memory.wf (s.memWrite addr n v).2.mem := by
  unfold State.memWrite; split
  · exact putLE_wf h _ _ _
  · exact h

theorem memoryInit_wf (s : State) (buffer : Option (List Byte)) : Memory.wf (s.memoryInit buffer).mem := ofBytes_wf _ _

theorem placeWord_wf {s : State} (h : Memory.wf s.mem) (w : Word32) : Memory.wf (s.placeWord w).mem := putLE_wf h _ _ _

end Sys2Proof.Machine
end

