-- ==== Sys2Proof/Laws/PerInstr.lean ====
section
/-! SUPPORT. Statements made per instruction. EncodingFitsTable: the word the encoder gives an instruction fits that instruction's
row of the opcode table (30_encoding.md R103 to R106). -/

namespace Sys2Proof.Laws.EncodingFitsTable

def Statement (i : Instr) : Prop := i.mnemonic.enc.accepts (encode i) = true

theorem addi (rd rs1 : Reg) (imm : BitVec 12) : Statement (.addi rd rs1 imm) := accepts_wordI _ rd rs1 imm rfl
theorem slti (rd rs1 : Reg) (imm : BitVec 12) : Statement (.slti rd rs1 imm) := accepts_wordI _ rd rs1 imm rfl
theorem sltiu (rd rs1 : Reg) (imm : BitVec 12) : Statement (.sltiu rd rs1 imm) := accepts_wordI _ rd rs1 imm rfl
theorem xori (rd rs1 : Reg) (imm : BitVec 12) : Statement (.xori rd rs1 imm) := accepts_wordI _ rd rs1 imm rfl
theorem ori (rd rs1 : Reg) (imm : BitVec 12) : Statement (.ori rd rs1 imm) := accepts_wordI _ rd rs1 imm rfl
theorem andi (rd rs1 : Reg) (imm : BitVec 12) : Statement (.andi rd rs1 imm) := accepts_wordI _ rd rs1 imm rfl
theorem slli (rd rs1 : Reg) (shamt : Nat) : Statement (.slli rd rs1 shamt) := accepts_wordSh64 _ _ rd rs1 shamt rfl
theorem srli (rd rs1 : Reg) (shamt : Nat) : Statement (.srli rd rs1 shamt) := accepts_wordSh64 _ _ rd rs1 shamt rfl
theorem srai (rd rs1 : Reg) (shamt : Nat) : Statement (.srai rd rs1 shamt) := accepts_wordSh64 _ _ rd rs1 shamt rfl
theorem addiw (rd rs1 : Reg) (imm : BitVec 12) : Statement (.addiw rd rs1 imm) := accepts_wordI _ rd rs1 imm rfl
theorem slliw (rd rs1 : Reg) (shamt : Nat) : Statement (.slliw rd rs1 shamt) := accepts_wordSh32 _ _ rd rs1 shamt rfl
theorem srliw (rd rs1 : Reg) (shamt : Nat) : Statement (.srliw rd rs1 shamt) := accepts_wordSh32 _ _ rd rs1 shamt rfl
theorem sraiw (rd rs1 : Reg) (shamt : Nat) : Statement (.sraiw rd rs1 shamt) := accepts_wordSh32 _ _ rd rs1 shamt rfl
theorem add (rd rs1 rs2 : Reg) : Statement (.add rd rs1 rs2) := accepts_wordR _ _ rd rs1 rs2 rfl
theorem sub (rd rs1 rs2 : Reg) : Statement (.sub rd rs1 rs2) := accepts_wordR _ _ rd rs1 rs2 rfl
theorem sll (rd rs1 rs2 : Reg) : Statement (.sll rd rs1 rs2) := accepts_wordR _ _ rd rs1 rs2 rfl
theorem slt (rd rs1 rs2 : Reg) : Statement (.slt rd rs1 rs2) := accepts_wordR _ _ rd rs1 rs2 rfl
theorem sltu (rd rs1 rs2 : Reg) : Statement (.sltu rd rs1 rs2) := accepts_wordR _ _ rd rs1 rs2 rfl
theorem xor (rd rs1 rs2 : Reg) : Statement (.xor rd rs1 rs2) := accepts_wordR _ _ rd rs1 rs2 rfl
theorem srl (rd rs1 rs2 : Reg) : Statement (.srl rd rs1 rs2) := accepts_wordR _ _ rd rs1 rs2 rfl
theorem sra (rd rs1 rs2 : Reg) : Statement (.sra rd rs1 rs2) := accepts_wordR _ _ rd rs1 rs2 rfl
theorem or (rd rs1 rs2 : Reg) : Statement (.or rd rs1 rs2) := accepts_wordR _ _ rd rs1 rs2 rfl
theorem and (rd rs1 rs2 : Reg) : Statement (.and rd rs1 rs2) := accepts_wordR _ _ rd rs1 rs2 rfl
theorem addw (rd rs1 rs2 : Reg) : Statement (.addw rd rs1 rs2) := accepts_wordR _ _ rd rs1 rs2 rfl
theorem subw (rd rs1 rs2 : Reg) : Statement (.subw rd rs1 rs2) := accepts_wordR _ _ rd rs1 rs2 rfl
theorem sllw (rd rs1 rs2 : Reg) : Statement (.sllw rd rs1 rs2) := accepts_wordR _ _ rd rs1 rs2 rfl
theorem srlw (rd rs1 rs2 : Reg) : Statement (.srlw rd rs1 rs2) := accepts_wordR _ _ rd rs1 rs2 rfl
theorem sraw (rd rs1 rs2 : Reg) : Statement (.sraw rd rs1 rs2) := accepts_wordR _ _ rd rs1 rs2 rfl

end Sys2Proof.Laws.EncodingFitsTable
end

