-- ==== Sys2Proof/Laws/Step.lean ====
section
/-! SUPPORT. Everything an instruction, an `Execute`, a `Fetch` and a round of the fetch loop can do, each said once. -/

namespace Sys2Proof.Machine

/-- Every instruction completes: it writes one value to its destination and returns `OK`. -/
theorem exec_complete (i : Instr) (s : State) :
    ∃ v, exec i s = .next ((s.writeReg i.rd v).setStatus .ok) := by
  cases i <;> exact ⟨_, rfl⟩

theorem complete_frame (rd : Reg) (v : Word) (s : State) : OnlyWrites rd s ((s.writeReg rd v).setStatus .ok) where
  regs r h := by simpa using readReg_writeReg_other s rd r v h
  pc := by simp
  fault := by simp
  halted := by simp
  ready := by simp
  bytes a := by simp
  mem := by simp
  busBound := by simp
  memLive := by simp
  image := by simp
  cfg := by simp
  status := by simp

/-- To show that an instruction completes with a property, show the property of the value it computes. -/
theorem Completes.of_complete {i : Instr} {s : State} {P : Word → Prop} {v : Word}
    (h : exec i s = complete i.rd v s) (hv : P v) : Completes i s P :=
  ⟨_, h, complete_frame i.rd v s, fun h0 => by
    rw [readReg_setStatus, readReg_writeReg_same s i.rd v h0]; exact hv⟩

/-- What `Execute` can do. -/
theorem execute_cases (w : Word32) (s : State) :
    (s.ready = false ∧ execute w s = .next (s.setStatus .invalidHandle)) ∨
    (s.ready = true ∧ s.halted = true ∧ execute w s = .fault .halted) ∨
    (s.ready = true ∧ s.halted = false ∧ ∃ i v, decodeWord w = .instr i ∧
      execute w s = .next ((s.writeReg i.rd v).setStatus .ok)) ∨
    (s.ready = true ∧ s.halted = false ∧ (∃ c, decodeWord w = .unimplemented w c) ∧
      execute w s = .next (s.raiseIllegal w)) := by
  unfold execute
  cases hr : s.ready with
  | false => simp
  | true =>
    cases hh : s.halted with
    | true => simp
    | false =>
      simp only [Bool.true_eq_false, Bool.false_eq_true, if_false, true_and, false_and, false_or]
      cases hm : mnemonicOf w with
      | none =>
        have hd : decodeWord w = .unimplemented w (illegalCase w) := by unfold decodeWord; rw [hm]
        exact .inr ⟨⟨_, hd⟩, by rw [hd]⟩
      | some m =>
        have hd : decodeWord w = .instr (m.build w) := by unfold decodeWord; rw [hm]
        obtain ⟨v, hv⟩ := exec_complete (m.build w) s
        exact .inl ⟨_, v, hd, by rw [hd]; exact hv⟩

/-- What `Fetch` can do. -/
theorem fetch_cases (s : State) :
    (s.ready = false ∧ fetch s = .next (sentinelWord, s.setFault)) ∨
    (s.ready = true ∧ s.halted = true ∧ fetch s = .fault .halted) ∨
    (s.ready = true ∧ s.halted = false ∧ ValidAccess s.cfg s.pc 4 ∧
      fetch s = .next ((BitVec.ofNat 64 (s.readLE s.pc.toNat 4)).extractLsb' 0 32, s)) ∨
    (s.ready = true ∧ s.halted = false ∧ ¬ ValidAccess s.cfg s.pc 4 ∧ fetch s = .next (sentinelWord, s.setFault)) := by
  unfold fetch
  cases hr : s.ready with
  | false => simp
  | true =>
    cases hh : s.halted with
    | true => simp
    | false =>
      by_cases hv : ValidAccess s.cfg s.pc 4
      · simp [hv, memRead_valid hv]
      · simp [hv, memRead_invalid hv, sentinelWord]

/-- The state between `Fetch` and `Execute`: the old one, or the old one with the fault flag set. -/
theorem fetch_next {s t : State} {w : Word32} (h : fetch s = .next (w, t)) : t = s ∨ t = s.setFault := by
  rcases fetch_cases s with ⟨_, e⟩ | ⟨_, _, e⟩ | ⟨_, _, _, e⟩ | ⟨_, _, _, e⟩ <;> rw [e] at h <;>
    simp only [Host.Outcome.next.injEq, Prod.mk.injEq, reduceCtorEq] at h
  · exact .inr h.2.symm
  · exact .inl h.2.symm
  · exact .inr h.2.symm

/-- What an `Execute` that answers a next state has done. -/
theorem execute_next {s t : State} {w : Word32} (h : execute w s = .next t) :
    t = s.setStatus .invalidHandle ∨ (∃ rd v, t = (s.writeReg rd v).setStatus .ok) ∨ t = s.raiseIllegal w := by
  rcases execute_cases w s with ⟨_, e⟩ | ⟨_, _, e⟩ | ⟨_, _, i, v, _, e⟩ | ⟨_, _, _, e⟩ <;> rw [e] at h <;>
    simp only [Host.Outcome.next.injEq, reduceCtorEq] at h
  · exact .inl h.symm
  · exact .inr (.inl ⟨i.rd, v, h.symm⟩)
  · exact .inr (.inr h.symm)

/-- What a step that answers a next state has done: a `Fetch`, an `Execute` of its word, the driver's increment. -/
theorem step_next {s t : State} (h : step s = .next t) :
    ∃ w u v, fetch s = .next (w, u) ∧ execute w u = .next v ∧ t = v.afterExecute := by
  unfold step fetchLoopRound at h
  split at h
  · rename_i w u hf
    split at h
    · rename_i v he
      exact ⟨w, u, v, hf, he, by simpa using h.symm⟩
    · cases h
    · cases h
  · cases h
  · cases h

end Sys2Proof.Machine
end

