-- ==== Sys2Proof/Laws/Runs.lean ====
section
/-! SUPPORT. What a run can do: the one decision after an `Execute`, a round at a time, and runs one after another. -/

namespace Sys2Proof.Machine

/-! ## Results -/

@[simp] theorem pass_ending (i : Nat) (q : Status) (r : RunResult) : (r.pass i q).ending = r.ending := rfl
@[simp] theorem pass_passed (i : Nat) (q : Status) (r : RunResult) : (r.pass i q).passed = (i, q) :: r.passed := rfl
@[simp] theorem pass_final (i : Nat) (q : Status) (r : RunResult) : (r.pass i q).final = r.final := rfl

@[simp] theorem mapNext_next {α β : Type} (f : α → β) (x : α) : mapNext f (.next x) = .next (f x) := rfl
@[simp] theorem mapNext_fault {α β : Type} (f : α → β) (e : Fault) : mapNext f (.fault e) = .fault e := rfl
@[simp] theorem mapNext_refused {α β : Type} (f : α → β) (e : Refusal) : mapNext f (.refused e) = .refused e := rfl

/-- A passed status must have been expected; nothing else about it matters. -/
@[simp] theorem endedWell_pass (p : Plan) (i : Nat) (q : Status) (r : RunResult) :
    (r.pass i q).endedWell p = (p.expected.contains (i, q) && r.endedWell p) := by
  unfold RunResult.endedWell
  simp [Bool.and_left_comm, Bool.and_assoc]

/-! ## The decision after an `Execute` -/

theorem goesOn_ok {t : State} (h : t.status = some .ok) : t.goesOn = true := by
  simp [State.goesOn, State.succeeded, h]

theorem goesOn_raiseIllegal (s : State) (w : Word32) :
    (s.raiseIllegal w).goesOn = (s.cfg.goOn && !(s.halted || decide (s.cfg.illegalMode = .strict))) := by
  simp [State.goesOn, State.succeeded, raiseIllegal_halted]

@[simp] theorem goesOn_afterExecute (t : State) : t.afterExecute.goesOn = t.goesOn := by
  simp [State.goesOn, State.succeeded]

theorem goOnOr_ok {t : State} (h : t.status = some .ok) (i : Nat) (stop : Nat → Status → RunEnd)
    (rest : Host.Outcome RunResult Fault Refusal) : t.goOnOr i stop rest = rest := by
  simp [State.goOnOr, h]

theorem goOnOr_pass {t : State} {q : Status} (h : t.status = some q) (hq : q ≠ .ok) (hg : t.goesOn = true) (i : Nat)
    (stop : Nat → Status → RunEnd) (rest : Host.Outcome RunResult Fault Refusal) :
    t.goOnOr i stop rest = mapNext (RunResult.pass i q) rest := by
  cases q <;> simp_all [State.goOnOr]

theorem goOnOr_stop {t : State} {q : Status} (h : t.status = some q) (hg : t.goesOn = false) (i : Nat)
    (stop : Nat → Status → RunEnd) (rest : Host.Outcome RunResult Fault Refusal) :
    t.goOnOr i stop rest = .next ⟨stop i q, [], t⟩ := by
  cases q with
  | ok => rw [goesOn_ok h] at hg; cases hg
  | illegalInstruction w => simp [State.goOnOr, h, hg]
  | invalidHandle => simp [State.goOnOr, h, hg]

/-! ## One word, one round -/

theorem runWords_cons {w : Word32} {s t : State} (h : execute w s = .next t) (ws : List Word32) (i : Nat) :
    runWords (w :: ws) i s = t.goOnOr i .stoppedAtWord (runWords ws (i + 1) t) := by
  simp only [runWords, h]

theorem runRounds_succ {s t : State} (h : step s = .next t) (n i : Nat) :
    runRounds (n + 1) i s = t.goOnOr i .stoppedAtRound (runRounds n (i + 1) t) := by
  simp only [runRounds, show fetchLoopRound s = .next t from h]

/-- Every `Execute` that answers a next state returns a status. -/
theorem execute_status {w : Word32} {s t : State} (h : execute w s = .next t) : ∃ q, t.status = some q := by
  rcases execute_next h with rfl | ⟨_, _, rfl⟩ | rfl <;> simp

theorem step_status {s t : State} (h : step s = .next t) : ∃ q, t.status = some q := by
  obtain ⟨_, _, v, _, he, rfl⟩ := step_next h
  simpa using execute_status he

/-- The decision, whole, for a status that is there: the run goes on, silently or recording the status, or ends. -/
theorem goOnOr_cases {t : State} {q : Status} (h : t.status = some q) (i : Nat) (stop : Nat → Status → RunEnd)
    (rest : Host.Outcome RunResult Fault Refusal) :
    (q = .ok ∧ t.goesOn = true ∧ t.goOnOr i stop rest = rest) ∨
    (q ≠ .ok ∧ t.goesOn = true ∧ t.goOnOr i stop rest = mapNext (RunResult.pass i q) rest) ∨
    (q ≠ .ok ∧ t.goesOn = false ∧ t.goOnOr i stop rest = .next ⟨stop i q, [], t⟩) := by
  by_cases hq : q = .ok
  · exact .inl ⟨hq, goesOn_ok (hq ▸ h), goOnOr_ok (hq ▸ h) i stop rest⟩
  · cases hg : t.goesOn with
    | true => exact .inr (.inl ⟨hq, rfl, goOnOr_pass h hq hg i stop rest⟩)
    | false => exact .inr (.inr ⟨hq, rfl, goOnOr_stop h hg i stop rest⟩)

/-- If what follows the decision ended without a status passed, and the run did too, the run went on from `OK`. -/
theorem goOnOr_eq_clean {t u : State} {i : Nat} {stop : Nat → Status → RunEnd} {e : RunEnd}
    {rest : Host.Outcome RunResult Fault Refusal} (hstop : ∀ q, stop i q ≠ e)
    (h : t.goOnOr i stop rest = .next ⟨e, [], u⟩) (hs : ∃ q, t.status = some q) :
    t.status = some .ok ∧ rest = .next ⟨e, [], u⟩ := by
  obtain ⟨q, hq⟩ := hs
  rcases goOnOr_cases hq i stop rest with ⟨rfl, _, k⟩ | ⟨_, _, k⟩ | ⟨_, _, k⟩ <;> rw [k] at h
  · exact ⟨hq, h⟩
  · cases rest <;> simp [RunResult.pass] at h
  · simp only [Host.Outcome.next.injEq, RunResult.mk.injEq] at h
    exact absurd h.1 (hstop q)

/-! ## Runs one after another -/

/-- A list that ran to its end with no status but `OK`, followed by further words. -/
theorem runWords_append (ws rest : List Word32) (i : Nat) (s t : State) (h : runWords ws i s = .next ⟨.exhausted, [], t⟩) :
    runWords (ws ++ rest) i s = runWords rest (i + ws.length) t := by
  induction ws generalizing i s with
  | nil => cases h; rfl
  | cons w ws ih =>
    cases he : execute w s with
    | next u =>
      rw [runWords_cons he] at h
      obtain ⟨hq, h⟩ := goOnOr_eq_clean (by simp) h (execute_status he)
      rw [List.cons_append, runWords_cons he, goOnOr_ok hq, ih _ _ h, List.length_cons]
      congr 1; omega
    | fault r => simp [runWords, he] at h
    | refused r => simp [runWords, he] at h

/-- Rounds that were all done with no status but `OK`, followed by further rounds. -/
theorem runRounds_add (n k i : Nat) (s t : State) (h : runRounds n i s = .next ⟨.stepCount, [], t⟩) :
    runRounds (n + k) i s = runRounds k (i + n) t := by
  induction n generalizing i s with
  | zero => cases h; simp
  | succ n ih =>
    rw [Nat.add_right_comm]
    cases he : step s with
    | next u =>
      rw [runRounds_succ he] at h ⊢
      obtain ⟨hq, h⟩ := goOnOr_eq_clean (by simp) h (step_status he)
      rw [goOnOr_ok hq, ih _ _ h]
      congr 1; omega
    | fault r => simp [runRounds, show fetchLoopRound s = .fault r from he] at h
    | refused r => simp [runRounds, show fetchLoopRound s = .refused r from he] at h

end Sys2Proof.Machine
end

