-- ==== Sys2Proof/Tests/Slice0.lean ====
section
/-! SUPPORT. The model's own tests. Every expected value stands in spec/ (95_test_vectors.md, unless a section says otherwise) or
is worked out by hand from an encoding or a rule there. Last, for every statement that has hypotheses, a concrete input that meets
them all. -/

namespace Sys2Proof.Tests

open Sys2Proof.Machine

/-! ## WellFormed refuses what has no encoding (41_op_imm.md R160, 42_op_imm_32.md R175) -/

theorem test_illformed_slli : (Instr.slli 5 6 64).wellFormed = false := by decide
theorem test_illformed_srli : (Instr.srli 5 6 64).wellFormed = false := by decide
theorem test_illformed_srai : (Instr.srai 5 6 64).wellFormed = false := by decide
theorem test_illformed_slliw : (Instr.slliw 5 6 32).wellFormed = false := by decide
theorem test_illformed_srliw : (Instr.srliw 5 6 32).wellFormed = false := by decide
theorem test_illformed_sraiw : (Instr.sraiw 5 6 32).wellFormed = false := by decide

/-! ## Decoding: one word for every constructor, written out bit by bit from the patterns of the table (30_encoding.md R103 to R106),
with rd = x21, rs1 = x10, rs2 = x19 -/

theorem test_decode_addi :
    decodeWord 0b101001100111_01010_000_10101_0010011#32 = .instr (.addi 21 10 0b101001100111#12) := by decide
theorem test_decode_slti :
    decodeWord 0b101001100111_01010_010_10101_0010011#32 = .instr (.slti 21 10 0b101001100111#12) := by decide
theorem test_decode_sltiu :
    decodeWord 0b101001100111_01010_011_10101_0010011#32 = .instr (.sltiu 21 10 0b101001100111#12) := by decide
theorem test_decode_xori :
    decodeWord 0b101001100111_01010_100_10101_0010011#32 = .instr (.xori 21 10 0b101001100111#12) := by decide
theorem test_decode_ori :
    decodeWord 0b101001100111_01010_110_10101_0010011#32 = .instr (.ori 21 10 0b101001100111#12) := by decide
theorem test_decode_andi :
    decodeWord 0b101001100111_01010_111_10101_0010011#32 = .instr (.andi 21 10 0b101001100111#12) := by decide
theorem test_decode_slli :
    decodeWord 0b000000_110101_01010_001_10101_0010011#32 = .instr (.slli 21 10 53) := by decide
theorem test_decode_srli :
    decodeWord 0b000000_110101_01010_101_10101_0010011#32 = .instr (.srli 21 10 53) := by decide
theorem test_decode_srai :
    decodeWord 0b010000_110101_01010_101_10101_0010011#32 = .instr (.srai 21 10 53) := by decide
theorem test_decode_addiw :
    decodeWord 0b101001100111_01010_000_10101_0011011#32 = .instr (.addiw 21 10 0b101001100111#12) := by decide
theorem test_decode_slliw :
    decodeWord 0b0000000_10110_01010_001_10101_0011011#32 = .instr (.slliw 21 10 22) := by decide
theorem test_decode_srliw :
    decodeWord 0b0000000_10110_01010_101_10101_0011011#32 = .instr (.srliw 21 10 22) := by decide
theorem test_decode_sraiw :
    decodeWord 0b0100000_10110_01010_101_10101_0011011#32 = .instr (.sraiw 21 10 22) := by decide
theorem test_decode_add :
    decodeWord 0b0000000_10011_01010_000_10101_0110011#32 = .instr (.add 21 10 19) := by decide
theorem test_decode_sub :
    decodeWord 0b0100000_10011_01010_000_10101_0110011#32 = .instr (.sub 21 10 19) := by decide
theorem test_decode_sll :
    decodeWord 0b0000000_10011_01010_001_10101_0110011#32 = .instr (.sll 21 10 19) := by decide
theorem test_decode_slt :
    decodeWord 0b0000000_10011_01010_010_10101_0110011#32 = .instr (.slt 21 10 19) := by decide
theorem test_decode_sltu :
    decodeWord 0b0000000_10011_01010_011_10101_0110011#32 = .instr (.sltu 21 10 19) := by decide
theorem test_decode_xor :
    decodeWord 0b0000000_10011_01010_100_10101_0110011#32 = .instr (.xor 21 10 19) := by decide
theorem test_decode_srl :
    decodeWord 0b0000000_10011_01010_101_10101_0110011#32 = .instr (.srl 21 10 19) := by decide
theorem test_decode_sra :
    decodeWord 0b0100000_10011_01010_101_10101_0110011#32 = .instr (.sra 21 10 19) := by decide
theorem test_decode_or :
    decodeWord 0b0000000_10011_01010_110_10101_0110011#32 = .instr (.or 21 10 19) := by decide
theorem test_decode_and :
    decodeWord 0b0000000_10011_01010_111_10101_0110011#32 = .instr (.and 21 10 19) := by decide
theorem test_decode_addw :
    decodeWord 0b0000000_10011_01010_000_10101_0111011#32 = .instr (.addw 21 10 19) := by decide
theorem test_decode_subw :
    decodeWord 0b0100000_10011_01010_000_10101_0111011#32 = .instr (.subw 21 10 19) := by decide
theorem test_decode_sllw :
    decodeWord 0b0000000_10011_01010_001_10101_0111011#32 = .instr (.sllw 21 10 19) := by decide
theorem test_decode_srlw :
    decodeWord 0b0000000_10011_01010_101_10101_0111011#32 = .instr (.srlw 21 10 19) := by decide
theorem test_decode_sraw :
    decodeWord 0b0100000_10011_01010_101_10101_0111011#32 = .instr (.sraw 21 10 19) := by decide

/-! ## Encoding: with every operand zero the word is the row's "match" of opcode_table.json -/

theorem test_match_op_imm :
    [Instr.addi 0 0 0, Instr.slti 0 0 0, Instr.sltiu 0 0 0, Instr.xori 0 0 0, Instr.ori 0 0 0, Instr.andi 0 0 0, Instr.slli 0 0 0, Instr.srli 0 0 0, Instr.srai 0 0 0].map encode =
      [0x00000013#32, 0x00002013#32, 0x00003013#32, 0x00004013#32, 0x00006013#32, 0x00007013#32, 0x00001013#32, 0x00005013#32, 0x40005013#32] := by decide
theorem test_match_op_imm_32 :
    [Instr.addiw 0 0 0, Instr.slliw 0 0 0, Instr.srliw 0 0 0, Instr.sraiw 0 0 0].map encode =
      [0x0000001b#32, 0x0000101b#32, 0x0000501b#32, 0x4000501b#32] := by decide
theorem test_match_op :
    [Instr.add 0 0 0, Instr.sub 0 0 0, Instr.sll 0 0 0, Instr.slt 0 0 0, Instr.sltu 0 0 0, Instr.xor 0 0 0, Instr.srl 0 0 0, Instr.sra 0 0 0, Instr.or 0 0 0, Instr.and 0 0 0].map encode =
      [0x00000033#32, 0x40000033#32, 0x00001033#32, 0x00002033#32, 0x00003033#32, 0x00004033#32, 0x00005033#32, 0x40005033#32, 0x00006033#32, 0x00007033#32] := by decide
theorem test_match_op_32 :
    [Instr.addw 0 0 0, Instr.subw 0 0 0, Instr.sllw 0 0 0, Instr.srlw 0 0 0, Instr.sraw 0 0 0].map encode =
      [0x0000003b#32, 0x4000003b#32, 0x0000103b#32, 0x0000503b#32, 0x4000503b#32] := by decide

/-! ## Decoding bytes and table words (20_memory.md R54; the source's first example) -/

theorem test_decodeBytes : decodeBytes [0x93, 0x00, 0x80, 0x3e, 0x33] = .decoded (.instr (.addi 1 0 1000#12)) [0x33] := by decide
theorem test_decodeBytes_short : decodeBytes [0x93, 0x00, 0x80] = .tooShort := by decide
theorem test_decodeTableWord : decodeTableWord 32 0x00108133 = some (.add 2 1 1) := by decide
theorem test_decodeTableWord_refuses : decodeTableWord 32 0x00000073 = none := by decide

/-! ## Unimplemented words, one for each case of R108 (section 2.8) -/

theorem test_illegal_a : decodeWord 0xffffffff#32 = .unimplemented 0xffffffff#32 .opcode := by decide
theorem test_illegal_b : decodeWord 0x04031293#32 = .unimplemented 0x04031293#32 .slliSelector := by decide
theorem test_illegal_c : decodeWord 0x44035293#32 = .unimplemented 0x44035293#32 .srliSraiSelector := by decide
theorem test_illegal_d : decodeWord 0x0003229b#32 = .unimplemented 0x0003229b#32 .opImm32Funct3 := by decide
theorem test_illegal_e : decodeWord 0x0203129b#32 = .unimplemented 0x0203129b#32 .slliwSelector := by decide
theorem test_illegal_f : decodeWord 0x6003529b#32 = .unimplemented 0x6003529b#32 .srliwSraiwSelector := by decide
theorem test_illegal_g : decodeWord 0x807302b3#32 = .unimplemented 0x807302b3#32 .opPair := by decide
theorem test_illegal_h : decodeWord 0x027302bb#32 = .unimplemented 0x027302bb#32 .op32Pair := by decide

/-! ## Immediate decoders (section 2.6) -/

theorem test_immI_80000093 : immI 0x80000093#32 = 0xFFFF_FFFF_FFFF_F800#64 := by decide
theorem test_immS_fe112e23 : immS 0xfe112e23#32 = 0xFFFF_FFFF_FFFF_FFFC#64 := by decide
theorem test_immS_7e000fa3 : immS 0x7e000fa3#32 = 0x7FF#64 := by decide
theorem test_immB_80000063 : immB 0x80000063#32 = 0xFFFF_FFFF_FFFF_F000#64 := by decide
theorem test_immB_000000e3 : immB 0x000000e3#32 = 0x800#64 := by decide
theorem test_immB_7e000f63 : immB 0x7e000f63#32 = 0x7FE#64 := by decide
theorem test_immU_800000b7 : immU 0x800000b7#32 = 0xFFFF_FFFF_8000_0000#64 := by decide
theorem test_immU_00000fff : immU 0x00000fff#32 = 0#64 := by decide
theorem test_immJ_801ff06f : immJ 0x801ff06f#32 = 0xFFFF_FFFF_FFFF_F800#64 := by decide
theorem test_immJ_0010006f : immJ 0x0010006f#32 = 0x800#64 := by decide
theorem test_immJ_7ffff06f : immJ 0x7ffff06f#32 = 0xF_FFFE#64 := by decide

/-! ## One instruction at a time: x6 and x7 before, x5 after (sections 2.1 to 2.5) -/

/-- What an outcome carries, where it is a next state. -/
def nextOf {σ φ ρ : Type} : Host.Outcome σ φ ρ → Option σ
  | .next x => some x
  | .fault _ => none
  | .refused _ => none

theorem eq_next {σ φ ρ : Type} {o : Host.Outcome σ φ ρ} {x : σ} (h : nextOf o = some x) : o = .next x := by
  cases o <;> simp_all [nextOf]

/-- The hart after reset with `x6 = a` and `x7 = b`. -/
def given (a b : Word) : State := (State.reset.writeReg 6 a).writeReg 7 b

/-- `x5` after a successful `Execute` of a word. -/
def x5After (w : Word32) (s : State) : Option Word :=
  ((nextOf (execute w s)).filter State.succeeded).map (·.readReg 5)

theorem test_addi_1 : x5After 0xfff30293 (given 0x0000_0000_0000_0000 0) = some 0xFFFF_FFFF_FFFF_FFFF := by decide
theorem test_addi_2 : x5After 0x80030293 (given 0x0000_0000_0000_0000 0) = some 0xFFFF_FFFF_FFFF_F800 := by decide
theorem test_slti_1 : x5After 0xfff32293 (given 0x8000_0000_0000_0000 0) = some 0x0000_0000_0000_0001 := by decide
theorem test_slti_2 : x5After 0x7ff32293 (given 0x0000_0000_0000_07FF 0) = some 0x0000_0000_0000_0000 := by decide
theorem test_sltiu_1 : x5After 0x80033293 (given 0xFFFF_FFFF_FFFF_F7FF 0) = some 0x0000_0000_0000_0001 := by decide
theorem test_sltiu_2 : x5After 0x7ff33293 (given 0x8000_0000_0000_0000 0) = some 0x0000_0000_0000_0000 := by decide
theorem test_xori_1 : x5After 0xfff34293 (given 0x1234_5678_9ABC_DEF0 0) = some 0xEDCB_A987_6543_210F := by decide
theorem test_xori_2 : x5After 0x0ff34293 (given 0x1234_5678_9ABC_DEF0 0) = some 0x1234_5678_9ABC_DE0F := by decide
theorem test_ori_1 : x5After 0x80036293 (given 0x0000_0000_0000_0000 0) = some 0xFFFF_FFFF_FFFF_F800 := by decide
theorem test_ori_2 : x5After 0x00f36293 (given 0x1234_5678_9ABC_DEF0 0) = some 0x1234_5678_9ABC_DEFF := by decide
theorem test_andi_1 : x5After 0x80037293 (given 0xFFFF_FFFF_FFFF_FFFF 0) = some 0xFFFF_FFFF_FFFF_F800 := by decide
theorem test_andi_2 : x5After 0x0ff37293 (given 0x1234_5678_9ABC_DEF0 0) = some 0x0000_0000_0000_00F0 := by decide
theorem test_slli_1 : x5After 0x03f31293 (given 0x0000_0000_0000_0001 0) = some 0x8000_0000_0000_0000 := by decide
theorem test_slli_2 : x5After 0x00431293 (given 0x1234_5678_9ABC_DEF0 0) = some 0x2345_6789_ABCD_EF00 := by decide
theorem test_srli_1 : x5After 0x03f35293 (given 0x8000_0000_0000_0000 0) = some 0x0000_0000_0000_0001 := by decide
theorem test_srli_2 : x5After 0x02035293 (given 0x1234_5678_9ABC_DEF0 0) = some 0x0000_0000_1234_5678 := by decide
theorem test_srai_1 : x5After 0x40435293 (given 0xF234_5678_9ABC_DEF0 0) = some 0xFF23_4567_89AB_CDEF := by decide
theorem test_srai_2 : x5After 0x43f35293 (given 0x8000_0000_0000_0000 0) = some 0xFFFF_FFFF_FFFF_FFFF := by decide
theorem test_addiw_1 : x5After 0x0013029b (given 0x0000_0000_7FFF_FFFF 0) = some 0xFFFF_FFFF_8000_0000 := by decide
theorem test_addiw_2 : x5After 0x8003029b (given 0x0000_0000_8000_0000 0) = some 0x0000_0000_7FFF_F800 := by decide
theorem test_slliw_1 : x5After 0x01f3129b (given 0x0000_0000_0000_0001 0) = some 0xFFFF_FFFF_8000_0000 := by decide
theorem test_slliw_2 : x5After 0x0043129b (given 0x1234_5678_9ABC_DEF0 0) = some 0xFFFF_FFFF_ABCD_EF00 := by decide
theorem test_srliw_1 : x5After 0x0003529b (given 0x0000_0000_8000_0000 0) = some 0xFFFF_FFFF_8000_0000 := by decide
theorem test_srliw_2 : x5After 0x0043529b (given 0x1234_5678_9ABC_DEF0 0) = some 0x0000_0000_09AB_CDEF := by decide
theorem test_sraiw_1 : x5After 0x4043529b (given 0x1234_5678_9ABC_DEF0 0) = some 0xFFFF_FFFF_F9AB_CDEF := by decide
theorem test_sraiw_2 : x5After 0x4083529b (given 0xFFFF_FFFF_1234_5678 0) = some 0x0000_0000_0012_3456 := by decide
theorem test_add_1 : x5After 0x007302b3 (given 0xFFFF_FFFF_FFFF_FFFF 0x0000_0000_0000_0001) = some 0x0000_0000_0000_0000 := by decide
theorem test_add_2 : x5After 0x007302b3 (given 0x8000_0000_0000_0000 0x8000_0000_0000_0000) = some 0x0000_0000_0000_0000 := by decide
theorem test_sub_1 : x5After 0x407302b3 (given 0x0000_0000_0000_0000 0x0000_0000_0000_0001) = some 0xFFFF_FFFF_FFFF_FFFF := by decide
theorem test_sub_2 : x5After 0x407302b3 (given 0x8000_0000_0000_0000 0x0000_0000_0000_0001) = some 0x7FFF_FFFF_FFFF_FFFF := by decide
theorem test_sll_1 : x5After 0x007312b3 (given 0x0000_0000_0000_0001 0x0000_0000_0000_0041) = some 0x0000_0000_0000_0002 := by decide
theorem test_sll_2 : x5After 0x007312b3 (given 0x1234_5678_9ABC_DEF0 0x0000_0000_0000_0004) = some 0x2345_6789_ABCD_EF00 := by decide
theorem test_slt_1 : x5After 0x007322b3 (given 0x8000_0000_0000_0000 0x7FFF_FFFF_FFFF_FFFF) = some 0x0000_0000_0000_0001 := by decide
theorem test_slt_2 : x5After 0x007322b3 (given 0x0000_0000_0000_0000 0xFFFF_FFFF_FFFF_FFFF) = some 0x0000_0000_0000_0000 := by decide
theorem test_sltu_1 : x5After 0x007332b3 (given 0x8000_0000_0000_0000 0x7FFF_FFFF_FFFF_FFFF) = some 0x0000_0000_0000_0000 := by decide
theorem test_sltu_2 : x5After 0x007332b3 (given 0x0000_0000_0000_0000 0xFFFF_FFFF_FFFF_FFFF) = some 0x0000_0000_0000_0001 := by decide
theorem test_xor_1 : x5After 0x007342b3 (given 0xFF00_FF00_FF00_FF00 0x0FF0_0FF0_0FF0_0FF0) = some 0xF0F0_F0F0_F0F0_F0F0 := by decide
theorem test_xor_2 : x5After 0x007342b3 (given 0x1234_5678_9ABC_DEF0 0xFFFF_FFFF_FFFF_FFFF) = some 0xEDCB_A987_6543_210F := by decide
theorem test_srl_1 : x5After 0x007352b3 (given 0x8000_0000_0000_0000 0x0000_0000_0000_003F) = some 0x0000_0000_0000_0001 := by decide
theorem test_srl_2 : x5After 0x007352b3 (given 0xFFFF_FFFF_FFFF_FFFF 0x0000_0000_0000_007F) = some 0x0000_0000_0000_0001 := by decide
theorem test_sra_1 : x5After 0x407352b3 (given 0xF234_5678_9ABC_DEF0 0x0000_0000_0000_0004) = some 0xFF23_4567_89AB_CDEF := by decide
theorem test_sra_2 : x5After 0x407352b3 (given 0x8000_0000_0000_0000 0x0000_0000_0000_007F) = some 0xFFFF_FFFF_FFFF_FFFF := by decide
theorem test_or_1 : x5After 0x007362b3 (given 0xFF00_FF00_FF00_FF00 0x0FF0_0FF0_0FF0_0FF0) = some 0xFFF0_FFF0_FFF0_FFF0 := by decide
theorem test_or_2 : x5After 0x007362b3 (given 0x1234_5678_9ABC_DEF0 0x0000_0000_0000_0000) = some 0x1234_5678_9ABC_DEF0 := by decide
theorem test_and_1 : x5After 0x007372b3 (given 0xFF00_FF00_FF00_FF00 0x0FF0_0FF0_0FF0_0FF0) = some 0x0F00_0F00_0F00_0F00 := by decide
theorem test_and_2 : x5After 0x007372b3 (given 0x1234_5678_9ABC_DEF0 0xFFFF_FFFF_FFFF_FFFF) = some 0x1234_5678_9ABC_DEF0 := by decide
theorem test_addw_1 : x5After 0x007302bb (given 0x0000_0000_7FFF_FFFF 0x0000_0000_0000_0001) = some 0xFFFF_FFFF_8000_0000 := by decide
theorem test_addw_2 : x5After 0x007302bb (given 0x1234_5678_0000_0001 0xABCD_EF00_0000_0002) = some 0x0000_0000_0000_0003 := by decide
theorem test_subw_1 : x5After 0x407302bb (given 0x0000_0000_8000_0000 0x0000_0000_0000_0001) = some 0x0000_0000_7FFF_FFFF := by decide
theorem test_subw_2 : x5After 0x407302bb (given 0x0000_0001_0000_0000 0x0000_0000_0000_0001) = some 0xFFFF_FFFF_FFFF_FFFF := by decide
theorem test_sllw_1 : x5After 0x007312bb (given 0x0000_0000_8000_0001 0xFFFF_FFFF_FFFF_FFE1) = some 0x0000_0000_0000_0002 := by decide
theorem test_sllw_2 : x5After 0x007312bb (given 0x0000_0000_0000_0001 0x0000_0000_0000_001F) = some 0xFFFF_FFFF_8000_0000 := by decide
theorem test_srlw_1 : x5After 0x007352bb (given 0xFFFF_FFFF_8000_0000 0x0000_0000_0000_0020) = some 0xFFFF_FFFF_8000_0000 := by decide
theorem test_srlw_2 : x5After 0x007352bb (given 0x1234_5678_9ABC_DEF0 0x0000_0000_0000_0024) = some 0x0000_0000_09AB_CDEF := by decide
theorem test_sraw_1 : x5After 0x407352bb (given 0x1234_5678_9ABC_DEF0 0x0000_0000_0000_0024) = some 0xFFFF_FFFF_F9AB_CDEF := by decide
theorem test_sraw_2 : x5After 0x407352bb (given 0xFFFF_FFFF_7FFF_FFFF 0x0000_0000_0000_0001) = some 0x0000_0000_3FFF_FFFF := by decide

/-! ## Slot 0 and a destination that is also a source (section 2.7) -/

theorem test_slot_zero_discards :
    (nextOf (execute 0x00500013 State.reset)).map (fun t => (t.readReg 0, t.regs)) = some (0, State.reset.regs) := by decide
theorem test_dest_is_source :
    (nextOf (execute 0x001080b3 (State.reset.writeReg 1 0x3E8))).map (·.readReg 1) = some 0x7D0 := by decide

/-! ## Memory (section 2.9) -/

/-- The hart after reset, with M1's eight bytes stored at BASE. -/
def stored : State := (State.reset.memWrite 0x8000_0000 8 0x1122_3344_5566_7788).2

theorem test_m1_cells : stored.mem.map (fun c => (c.1 - 0x8000_0000, c.2)) =
    [(0, 0x88), (1, 0x77), (2, 0x66), (3, 0x55), (4, 0x44), (5, 0x33), (6, 0x22), (7, 0x11)] := by decide
theorem test_m4 : (stored.memRead 0x8000_0001 2).1 = 0x6677 := by decide
theorem test_m6 : (stored.memRead 0x8000_0003 4).1 = 0x2233_4455 := by decide
theorem test_m7 : (State.reset.memWrite 0x8000_0010 1 0xFFFF_FFFF_FFFF_FFAB).2.mem = [(0x8000_0010, 0xAB)] := by decide
theorem test_m10 :
    ((State.reset.memWrite 0x8000_0030 4 0x1_8000_0001).2.memRead 0x8000_0030 4).1 = 0x8000_0001 := by decide
theorem test_m12 : State.reset.memRead 0x7FFF_FFFF 1 = (0xFFFF_FFFF_FFFF_FFFF, State.reset.setFault) := by decide
theorem test_m16 : State.reset.memRead 0x800F_FFF9 8 = (0xFFFF_FFFF_FFFF_FFFF, State.reset.setFault) := by decide
theorem test_m21 : State.reset.memWrite 0x800F_FFF9 8 0 = (.error, State.reset) := by decide
theorem test_m22 : (match State.reset.memWrite 0x800F_FFF8 8 0xFFFF_FFFF_FFFF_FFFF with
    | (a, t) => (a, (t.memRead 0x800F_FFF8 8).1, t.fault)) = (.ok, 0xFFFF_FFFF_FFFF_FFFF, false) := by decide
theorem test_m23 : State.reset.memRead 0x8000_0000 3 = (0xFFFF_FFFF_FFFF_FFFF, State.reset.setFault) := by decide
theorem test_m25 : State.reset.memRead 0xFFFF_FFFF_FFFF_FFFF 8 = (0xFFFF_FFFF_FFFF_FFFF, State.reset.setFault) := by decide
theorem test_reset_memory_wf : Memory.wf State.reset.mem := by decide
/-- A byte nobody supplied is the free byte of its offset (log 4). -/
theorem test_unlisted_byte : State.reset.readByte 0x8000_0005 = Config.memInit 0 5 := by rfl

/-! ## Fetch (section 2.10) -/

/-- The hart after reset with a word stored at BASE. -/
def placed (w : Word32) : State := State.reset.placeWord w

theorem test_f1 : nextOf (fetch (placed 0x3e800093)) = some (0x3e800093, placed 0x3e800093) := by decide
theorem test_f3 :
    (nextOf (fetch { ((placed 0x3e800093).memWrite 0x8000_0004 1 0x33).2 with pc := 0x8000_0001 })).map (·.1) = some 0x333e8000 := by decide
theorem test_f5 : nextOf (fetch { State.reset with pc := 0x800F_FFFD }) =
    some (0xFFFF_FFFF, { State.reset with pc := 0x800F_FFFD, fault := true }) := by decide
theorem test_f8 : nextOf (fetch { State.reset with ready := false }) =
    some (0xFFFF_FFFF, { State.reset with ready := false, fault := true }) := by decide
theorem test_f9 : nextOf (execute 0x3e800093 { State.reset with ready := false }) =
    some { State.reset with ready := false, status := some .invalidHandle } := by decide

/-- The mode, the increment and the driver's choice of a state, replaced. -/
def withMode (s : State) (mode : IllegalMode) (pcStep : Nat) (goOn : Bool) : State :=
  { s with cfg := { s.cfg with illegalMode := mode, pcStep := pcStep, goOn := goOn } }

/-! ## One round of the fetch loop (section 3: the last step of P3, and of P5's continuation) -/

theorem test_step_repeats_at_pc : (nextOf (step (placed 0x00108093))).map (fun t => (t.readReg 1, t.pc)) =
    some (1, 0x8000_0000) := by decide
theorem test_step_pcStep_4 :
    (nextOf (step (withMode (placed 0xffb00513) .strict 4 false))).map (fun t => (t.readReg 10, t.pc)) =
      some (0xFFFF_FFFF_FFFF_FFFB, 0x8000_0004) := by decide
theorem test_p3_end :
    (nextOf (step (withMode (placed 0) .strict 4 false))).map (fun t => (t.halted, t.pc, t.status.bind Status.diagnostic)) =
      some (true, 0x8000_0000, some (0x00, 0b000, 0b0000000)) := by decide
theorem test_p5_end :
    (nextOf (step { State.reset with pc := 0x8010_0000 })).map (fun t => (t.halted, t.pc, t.fault, t.status)) =
      some (true, 0x8010_0000, true, some (.illegalInstruction 0xFFFF_FFFF)) := by decide
theorem test_step_halted : step { State.reset with halted := true } = .fault .halted := rfl
theorem test_withFetchWord :
    (nextOf (step (State.reset.withFetchWord 32 0x3e800093))).map (·.readReg 1) = some 1000 := by decide
/-- Program P4 to its third word, recoverable mode: nothing changes but the status. -/
theorem test_recoverable :
    nextOf (execute 0x00008067 (withMode State.reset .recoverable 0 false)) =
      some ((withMode State.reset .recoverable 0 false).setStatus (.illegalInstruction 0x00008067)) := by decide

/-! ## Runs and how they end (section 3; 70_reset_and_hazards.md R270, R271) -/

theorem test_p1 :
    (nextOf (runWords [0x3e800093, 0x00108133] 0 State.reset)).map
        (fun r => (r.ending, r.passed, r.final.readReg 1, r.final.readReg 2, r.endedWell {})) =
      some (.exhausted, [], 1000, 2000, true) := by decide
/-- P4's last two words, numbered as in P4: what the run met must have been expected. -/
theorem test_p4_recoverable :
    (nextOf (runWords [0x00008067, 0x00708093] 2 (withMode State.reset .recoverable 0 true))).map
        (fun r => (r.ending, r.passed, r.final.readReg 1, r.endedWell { expected := [(2, .illegalInstruction 0x00008067)] },
          r.endedWell {})) =
      some (.exhausted, [(2, .illegalInstruction 0x00008067)], 7, true, false) := by decide
theorem test_p4_strict :
    (nextOf (runWords [0x00008067, 0x00708093] 2 State.reset)).map
        (fun r => (r.ending, r.passed, r.final.readReg 1, r.final.halted, r.endedWell {})) =
      some (.stoppedAtWord 2 (.illegalInstruction 0x00008067), [], 0, true, false) := by decide
/-- The end of P3 in recoverable mode: told from a run that goes on, and well only where it was planned. -/
theorem test_p3_planned_end :
    (nextOf (runRounds 9 6 (withMode (placed 0) .recoverable 4 false))).map
        (fun r => (r.ending, r.final.pc, r.final.halted, r.endedWell { endsAt := some (0x8000_0000, 0) }, r.endedWell {})) =
      some (.stoppedAtRound 6 (.illegalInstruction 0), 0x8000_0000, false, true, false) := by decide
theorem test_p5_stepCount :
    (nextOf (runRounds 2 0 (placed 0x00108093))).map (fun r => (r.ending, r.passed, r.final.readReg 1, r.endedWell {})) =
      some (.stepCount, [], 2, true) := by decide

/-! ## The driver out of order (70_reset_and_hazards.md R273 (a), (b)) -/

theorem test_busDeinit_out_of_order : nextOf (drive .busDeinit State.reset) = some (.error, State.reset) := by decide
theorem test_memoryDeinit_out_of_order : nextOf (drive .memoryDeinit State.reset) = some (.error, State.reset) := by decide
theorem test_hartDeinit_twice : drive .hartDeinit { State.reset with ready := false } = .refused .deinitTwice := rfl

/-! ## Witnesses: inputs that meet the hypotheses of the statements -/

/-- A lived-in state: M1's bytes stored, an instruction word at BASE + 16, registers written, `fault` set. -/
def livedIn : State :=
  { (stored.memWrite 0x8000_0010 4 0x00108093).2 with pc := 0x8000_0010, regs := (given 3 5).regs, fault := true }

theorem livedIn_Inv : livedIn.Inv where
  window := by decide
  memCanonical := by decide
  memInWindow := by decide
  noImage := by decide
  slotZero := by decide
  haltedStrict := by decide
  readyBound := by decide
  boundLive := by decide

theorem valid {c : Config} {addr : Word} {n : Nat} (h : Config.accessOk c addr n = true) : ValidAccess c addr n :=
  (accessOk_iff c addr n).mp h
theorem invalid {c : Config} {addr : Word} {n : Nat} (h : Config.accessOk c addr n = false) : ¬ ValidAccess c addr n :=
  fun hv => by rw [(accessOk_iff c addr n).mpr hv] at h; cases h

theorem witness_ResetStateValues : (31 : Reg) ≠ 2 ∧ (0 : Reg) ≠ 2 := by decide
theorem witness_HartInitGivesResetValues : livedIn.busBound = true := by decide
theorem witness_BootGivesInitialState :
    0 < livedIn.cfg.capacity ∧ ((some [0x93#8] : Option (List Byte)).getD [])[0]? = some 0x93 ∧
    1048575 < livedIn.cfg.capacity ∧ ((some [0x93#8] : Option (List Byte)).getD [])[1048575]? = none := by decide
theorem witness_InitWithoutArgumentFails_memory : ({ State.reset with memLive := false } : State).memLive = false := by decide
theorem witness_InitWithoutArgumentFails_bus : ({ State.reset with busBound := false } : State).busBound = false := by decide
theorem witness_TeardownInReverseOrder : livedIn.Inv ∧ livedIn.ready = true := ⟨livedIn_Inv, by decide⟩
theorem witness_ImmediateShifts : (0 : Nat) < 64 ∧ (63 : Nat) < 64 := by decide
theorem witness_WordWidthLaw : (0 : Nat) < 32 ∧ (31 : Nat) < 32 := by decide
theorem witness_WordOpsIgnoreUpperHalves_0x1b :
    (Instr.addiw 5 6 1#12).mnemonic.enc.opcode = 0x1b#7 ∧
    (∀ r, ((given 0x7FFF_FFFF 1).readReg r).toNat % 2 ^ 32 = ((given 0xABCD_0000_7FFF_FFFF 1).readReg r).toNat % 2 ^ 32) ∧
    (Instr.addiw 5 6 1#12).rd ≠ 0 ∧ 32 ≤ 63 ∧ 63 < 64 := by decide
theorem witness_WordOpsIgnoreUpperHalves_0x3b :
    (Instr.addw 5 6 7).mnemonic.enc.opcode = 0x3b#7 ∧
    (∀ r, ((given 1 2).readReg r).toNat % 2 ^ 32 = ((given 0x1_0000_0001 2).readReg r).toNat % 2 ^ 32) ∧
    (Instr.addw 5 6 7).rd ≠ 0 ∧ 32 ≤ 32 ∧ 32 < 64 := by decide
theorem witness_RegisterReadsItsSlot : (31 : Reg) ≠ 0 := by decide
theorem witness_SuccessfulExecuteOneSideEffect :
    decodeWord 0x3e800093 = .instr (.addi 1 0 1000#12) ∧ livedIn.ready = true ∧ livedIn.halted = false := by decide
theorem witness_ExecuteDependsOnWordAndRegisters :
    (∀ r, ({ given 3 5 with pc := 0x8000_0008, fault := true } : State).readReg r = (given 3 5).readReg r) ∧
    ({ given 3 5 with pc := 0x8000_0008, fault := true } : State).ready = (given 3 5).ready ∧
    ({ given 3 5 with pc := 0x8000_0008, fault := true } : State).halted = (given 3 5).halted ∧
    ({ given 3 5 with pc := 0x8000_0008, fault := true } : State).cfg.illegalMode = (given 3 5).cfg.illegalMode ∧
    execute 0x007302b3 (given 3 5) = .next (((given 3 5).writeReg 5 8).setStatus .ok) :=
  ⟨by decide, by decide, by decide, by decide, eq_next (by decide)⟩
theorem witness_FaultFlagIsInert :
    execute 0x007302b3 (given 3 5) = .next (((given 3 5).writeReg 5 8).setStatus .ok) ∧
    fetch (placed 0x00500013) = .next (0x00500013, placed 0x00500013) ∧
    step (placed 0x00500013) = .next ((placed 0x00500013).setStatus .ok) :=
  ⟨eq_next (by decide), eq_next (by decide), eq_next (by decide)⟩
theorem witness_ImmediatesTakeSignFromBit31 : 11 < 64 ∧ 12 < 64 ∧ 20 < 64 ∧ 31 < 64 ∧ 11 ≤ 63 ∧ 63 < 64 := by decide
theorem witness_FourOpcodesDispatch_implemented :
    decodeWord 0x80030293 = .instr (.addi 5 6 0x800#12) ∧ decodeWord 0x4083529b = .instr (.sraiw 5 6 8) ∧
    decodeWord 0x407302b3 = .instr (.sub 5 6 7) ∧ decodeWord 0x407352bb = .instr (.sraw 5 6 7) := by decide
theorem witness_FourOpcodesDispatch_fields :
    opcodeOf 0x407302b3 = opcodeOf 0x40000033 ∧ funct3Of 0x407302b3 = funct3Of 0x40000033 ∧
    funct7Of 0x407302b3 = funct7Of 0x40000033 ∧ (0x407302b3 : Word32) ≠ 0x40000033 := by decide
theorem witness_FourOpcodesDispatch_others :
    opcodeOf 0x00000012 ∉ [0x13#7, 0x1b#7, 0x33#7, 0x3b#7] ∧ opcodeOf 0xffffffff ∉ [0x13#7, 0x1b#7, 0x33#7, 0x3b#7] := by decide
/-- (The eight cases themselves are the tests test_illegal_a to test_illegal_h.) -/
theorem witness_UnimplementedWordCases :
    decodeWord 0x02730033 = .unimplemented 0x02730033 .opPair ∧ livedIn.ready = true ∧ livedIn.halted = false := by decide
theorem witness_EachWordFitsAtMostOneRow : Mnemonic.srai.enc.accepts 0x43f35293 = true := by decide
theorem witness_DecodeOfEncode : (Instr.srai 31 31 63).wellFormed = true ∧ (Instr.sraiw 31 31 31).wellFormed = true := by decide
theorem witness_EncodeOfDecode : decodeWord 0x43f35293 = .instr (.srai 5 6 63) := by decide
theorem witness_LoadReadsLittleEndian : ValidAccess livedIn.cfg 0x8000_0000 1 ∧ ValidAccess livedIn.cfg 0x800F_FFF8 8 :=
  ⟨valid (by decide), valid (by decide)⟩
theorem witness_StoreWritesItsBytes : ValidAccess livedIn.cfg 0x8000_0001 2 ∧ ValidAccess livedIn.cfg 0x800F_FFFF 1 :=
  ⟨valid (by decide), valid (by decide)⟩
theorem witness_LoadAfterStore : ValidAccess livedIn.cfg 0x8000_0003 4 ∧ ValidAccess livedIn.cfg 0x800F_FFF8 8 :=
  ⟨valid (by decide), valid (by decide)⟩
theorem witness_LoadFaultsOutsideWindow_invalid :
    livedIn.busBound = true ∧
    ∀ p ∈ [(0x7FFF_FFFF#64, 8), (0x8010_0000#64, 8), (0x800F_FFF9#64, 64), (0x8000_0000#64, 24), (0x8000_0000#64, 0)],
      ¬ (p.2 ∈ [8, 16, 32, 64] ∧ livedIn.cfg.base.toNat ≤ p.1.toNat ∧
        p.1.toNat + p.2 / 8 ≤ livedIn.cfg.base.toNat + livedIn.cfg.capacity) := by decide
theorem witness_LoadFaultsOutsideWindow_valid :
    livedIn.busBound = true ∧ ∀ p ∈ [(0x8000_0000#64, 8), (0x800F_FFFF#64, 8), (0x800F_FFF8#64, 64)],
      p.2 ∈ [8, 16, 32, 64] ∧ livedIn.cfg.base.toNat ≤ p.1.toNat ∧
        p.1.toNat + p.2 / 8 ≤ livedIn.cfg.base.toNat + livedIn.cfg.capacity := by decide
theorem witness_LoadFaultsOutsideWindow_fetch :
    State.reset.busBound = true ∧ State.reset.ready = true ∧ State.reset.halted = false ∧
    ¬ (State.reset.cfg.base.toNat ≤ (0x800F_FFFD#64).toNat ∧
      (0x800F_FFFD#64).toNat + 4 ≤ State.reset.cfg.base.toNat + State.reset.cfg.capacity) := by decide
theorem witness_StoreErrorsOutsideWindow_invalid :
    livedIn.busBound = true ∧ ¬ (64 ∈ [8, 16, 32, 64] ∧ livedIn.cfg.base.toNat ≤ (0x800F_FFF9#64).toNat ∧
      (0x800F_FFF9#64).toNat + 64 / 8 ≤ livedIn.cfg.base.toNat + livedIn.cfg.capacity) := by decide
theorem witness_StoreErrorsOutsideWindow_valid :
    livedIn.busBound = true ∧ 64 ∈ [8, 16, 32, 64] ∧ livedIn.cfg.base.toNat ≤ (0x800F_FFF8#64).toNat ∧
      (0x800F_FFF8#64).toNat + 64 / 8 ≤ livedIn.cfg.base.toNat + livedIn.cfg.capacity := by decide
theorem witness_FetchReadsWordAtPc :
    livedIn.ready = true ∧ livedIn.halted = false ∧ ValidAccess livedIn.cfg livedIn.pc 4 :=
  ⟨by decide, by decide, valid (by decide)⟩
theorem witness_FetchSeesStore :
    ({ livedIn with pc := 0x800F_FFFC } : State).ready = true ∧ ({ livedIn with pc := 0x800F_FFFC } : State).halted = false ∧
    ValidAccess livedIn.cfg 0x800F_FFFC 4 := ⟨by decide, by decide, valid (by decide)⟩
theorem witness_NotReadyHart : ({ livedIn with ready := false } : State).ready = false := by decide
theorem witness_StepRunsDecodedInstruction :
    livedIn.ready = true ∧ livedIn.halted = false ∧ ValidAccess livedIn.cfg livedIn.pc 4 ∧
    (Instr.addi 1 1 1#12).wellFormed = true ∧
    decodeBytes [livedIn.readByte livedIn.pc.toNat, livedIn.readByte (livedIn.pc.toNat + 1),
      livedIn.readByte (livedIn.pc.toNat + 2), livedIn.readByte (livedIn.pc.toNat + 3)] = .decoded (.instr (.addi 1 1 1#12)) [] :=
  ⟨by decide, by decide, valid (by decide), by decide, by decide⟩
theorem witness_RaiseChangesNoRegister :
    decodeWord 0x00008067 = .unimplemented 0x00008067 .opcode ∧ livedIn.ready = true ∧ livedIn.halted = false := by decide
theorem witness_IllegalHaltsInStrictMode :
    (placed 0).ready = true ∧ (placed 0).halted = false ∧ ValidAccess (placed 0).cfg (placed 0).pc 4 ∧
    (placed 0).cfg.illegalMode = .strict ∧
    decodeWord ((placed 0).wordAt (placed 0).pc.toNat) = .unimplemented ((placed 0).wordAt (placed 0).pc.toNat) .opcode :=
  ⟨by decide, by decide, valid (by decide), by decide, by decide⟩

/-- Recoverable mode, a driver that goes on by 4, an unimplemented word at `pc`. -/
def recovering : State := withMode (placed 0x027302b3) .recoverable 4 true

theorem witness_IllegalReportedInRecoverableMode :
    recovering.ready = true ∧ recovering.halted = false ∧ ValidAccess recovering.cfg recovering.pc 4 ∧
    recovering.cfg.illegalMode = .recoverable ∧
    decodeWord (recovering.wordAt recovering.pc.toNat) = .unimplemented (recovering.wordAt recovering.pc.toNat) .opPair ∧
    decodeWord 0x00708093 = .instr (.addi 1 1 7#12) :=
  ⟨by decide, by decide, valid (by decide), by decide, by decide, by decide⟩
theorem witness_StepStopsExactlyWhenHalted : ¬ (livedIn.ready = true ∧ livedIn.halted = true) := by decide
theorem witness_FaultingFetchIsIllegal :
    ({ livedIn with pc := 0x800F_FFFD } : State).ready = true ∧ ({ livedIn with pc := 0x800F_FFFD } : State).halted = false ∧
    ¬ ValidAccess livedIn.cfg 0x800F_FFFD 4 := ⟨by decide, by decide, invalid (by decide)⟩
theorem witness_StepKeepsInv : livedIn.Inv ∧ step livedIn = .next ((livedIn.writeReg 1 1).setStatus .ok) :=
  ⟨livedIn_Inv, eq_next (by decide)⟩
theorem witness_DriverKeepsInv :
    livedIn.Inv ∧ drive (.store 0x800F_FFFF 8 0xAB) livedIn =
      .next (.ok, { livedIn with mem := livedIn.mem ++ [(0x800F_FFFF, 0xAB)] }) := ⟨livedIn_Inv, eq_next (by decide)⟩
theorem witness_FaultStickyUntilReset_drive :
    livedIn.fault = true ∧ drive (.hartInit true) livedIn = .next (.ok, livedIn.hartInit) ∧ livedIn.hartInit.fault = false :=
  ⟨by decide, eq_next (by decide), by decide⟩
theorem witness_FaultStickyUntilReset_step :
    livedIn.fault = true ∧ step livedIn = .next ((livedIn.writeReg 1 1).setStatus .ok) := ⟨by decide, eq_next (by decide)⟩
theorem witness_OnlyIllegalInstructionHalts_set :
    drive (.execute 0) livedIn = .next (.status (some (.illegalInstruction 0)), livedIn.raiseIllegal 0) ∧
    livedIn.halted = false ∧ (livedIn.raiseIllegal 0).halted = true :=
  ⟨eq_next (by decide), by decide, by decide⟩
theorem witness_OnlyIllegalInstructionHalts_cleared :
    drive (.hartInit true) livedIn.setHalted = .next (.ok, livedIn.setHalted.hartInit) ∧
    livedIn.setHalted.halted = true ∧ livedIn.setHalted.hartInit.halted = false :=
  ⟨eq_next (by decide), by decide, by decide⟩
theorem witness_PcMovesOnlyByDriver :
    drive .fetch livedIn = .next (.word 0x00108093, livedIn) ∧
    drive (.hartInit true) livedIn = .next (.ok, livedIn.hartInit) ∧
    drive .advancePc (withMode livedIn .strict 4 false) = .next (.ok, (withMode livedIn .strict 4 false).advancePc) ∧
    drive (.setPc 0xFFFF_FFFF_FFFF_FFFF) livedIn = .next (.ok, { livedIn with pc := 0xFFFF_FFFF_FFFF_FFFF }) ∧
    step livedIn = .next ((livedIn.writeReg 1 1).setStatus .ok) :=
  ⟨eq_next (by decide), eq_next (by decide), eq_next (by decide), eq_next (by decide), eq_next (by decide)⟩
theorem witness_MemoryChangesOnlyByDriver :
    drive (.execute 0x00108093) livedIn = .next (.status (some .ok), (livedIn.writeReg 1 1).setStatus .ok) ∧
    drive (.memoryInit (some [0x13])) livedIn = .next (.ok, livedIn.memoryInit (some [0x13])) ∧
    step livedIn = .next ((livedIn.writeReg 1 1).setStatus .ok) :=
  ⟨eq_next (by decide), eq_next (by decide), eq_next (by decide)⟩
theorem witness_PcStepZeroRepeatsWord :
    livedIn.cfg.pcStep = 0 ∧ livedIn.ready = true ∧ livedIn.halted = false ∧ ValidAccess livedIn.cfg livedIn.pc 4 ∧
    decodeWord (livedIn.wordAt livedIn.pc.toNat) = .instr (.addi 1 1 1#12) :=
  ⟨by decide, by decide, by decide, valid (by decide), by decide⟩

/-- The default window, the driver walking by 4. -/
def walking : State := withMode (placed 0x00108093) .strict 4 false
/-- A window of one word at the very top of the address space. -/
def walkingAtTop : State :=
  { walking with pc := 0xFFFF_FFFF_FFFF_FFFC, mem := [], cfg := { walking.cfg with base := 0xFFFF_FFFF_FFFF_FFFC, capacity := 4 } }

theorem witness_FetchLoopEndsInIllegal :
    walking.cfg.Valid ∧ walking.cfg.pcStep = 4 ∧ walking.cfg.capacity % 4 = 0 ∧ walking.pc = walking.cfg.base ∧
    walking.ready = true ∧ walking.halted = false ∧ walking.cfg.capacity ≠ 2 ^ 64 := by decide
theorem witness_FetchLoopEndsInIllegal_top :
    walkingAtTop.cfg.Valid ∧ walkingAtTop.cfg.pcStep = 4 ∧ walkingAtTop.cfg.capacity % 4 = 0 ∧
    walkingAtTop.pc = walkingAtTop.cfg.base ∧ walkingAtTop.ready = true ∧ walkingAtTop.halted = false ∧
    walkingAtTop.cfg.capacity ≠ 2 ^ 64 := by decide
theorem witness_WordStreamCompletes :
    ([0x3e800093, 0x00108133] : List Word32) ≠ [] ∧ livedIn.ready = true ∧ livedIn.halted = false ∧
    ∀ w ∈ ([0x3e800093, 0x00108133] : List Word32), ∃ i, decodeWord w = .instr i :=
  ⟨by decide, by decide, by decide, List.forall_mem_cons.mpr ⟨⟨.addi 1 0 1000#12, by decide⟩,
    List.forall_mem_cons.mpr ⟨⟨.add 2 1 1, by decide⟩, nofun⟩⟩⟩
theorem witness_WordStreamStopsAtIllegal_stops :
    recovering.ready = true ∧ recovering.halted = false ∧ (∀ x ∈ ([0x00500013] : List Word32), ∃ i, decodeWord x = .instr i) ∧
    decodeWord 0x00008067 = .unimplemented 0x00008067 .opcode ∧ (withMode recovering .recoverable 4 false).cfg.goOn = false :=
  ⟨by decide, by decide, List.forall_mem_cons.mpr ⟨⟨.addi 0 0 5#12, by decide⟩, nofun⟩, by decide, by decide⟩
theorem witness_WordStreamStopsAtIllegal_strict :
    (withMode recovering .strict 4 true).ready = true ∧ (withMode recovering .strict 4 true).halted = false ∧
    (∀ x ∈ ([0x00500013] : List Word32), ∃ i, decodeWord x = .instr i) ∧
    decodeWord 0x00008067 = .unimplemented 0x00008067 .opcode ∧ (withMode recovering .strict 4 true).cfg.illegalMode = .strict :=
  ⟨by decide, by decide, List.forall_mem_cons.mpr ⟨⟨.addi 0 0 5#12, by decide⟩, nofun⟩, by decide, by decide⟩
theorem witness_WordStreamGoesOn :
    recovering.ready = true ∧ recovering.halted = false ∧ (∀ x ∈ ([0x00500013] : List Word32), ∃ i, decodeWord x = .instr i) ∧
    decodeWord 0x00008067 = .unimplemented 0x00008067 .opcode ∧ recovering.cfg.goOn = true ∧
    recovering.cfg.illegalMode = .recoverable ∧
    (1, Status.illegalInstruction 0x00008067) ∈ ({ expected := [(1, .illegalInstruction 0x00008067)] } : Plan).expected :=
  ⟨by decide, by decide, List.forall_mem_cons.mpr ⟨⟨.addi 0 0 5#12, by decide⟩, nofun⟩, by decide, by decide, by decide, by decide⟩
theorem witness_FetchLoopRunEnds : ¬ (livedIn.ready = true ∧ livedIn.halted = true) := by decide

/-- SLTU at BASE (the last instruction of P3), then the all-zero word, the driver walking by 4. -/
def planned : State := withMode ((placed 0x00a03733).memWrite 0x8000_0004 4 0).2 .strict 4 false
/-- `planned` after one round. -/
def atPlannedEnd : State := ((planned.writeReg 14 0).setStatus .ok).advancePc

theorem witness_FetchLoopRunEnds_planned :
    runRounds 1 0 planned = .next ⟨.stepCount, [], atPlannedEnd⟩ ∧ atPlannedEnd.ready = true ∧ atPlannedEnd.halted = false ∧
    ValidAccess atPlannedEnd.cfg atPlannedEnd.pc 4 ∧ atPlannedEnd.wordAt atPlannedEnd.pc.toNat = 0 ∧
    decodeWord 0 = .unimplemented 0 .opcode ∧ atPlannedEnd.cfg.goOn = false :=
  ⟨eq_next (by decide), by decide, by decide, valid (by decide), by decide, by decide, by decide⟩

end Sys2Proof.Tests
end

section
/-! SUPPORT. Proofs about the register file (10_state.md section 2). -/

namespace Sys2Proof.Proofs.Registers
open Sys2Proof.Machine

/-- The companion of `readReg_zero`: only slot 0 is hardwired. -/
theorem readReg_of_ne_zero (s : State) {r : Reg} (h : r ≠ 0) : s.readReg r = s.regs[r.val] :=
  if_neg h

/-- Settles O18: slot 0 is hardwired to 0, and any other slot is read from the register vector. -/
theorem registerReadsItsSlot : Obligations.RegisterReadsItsSlot :=
  fun s => ⟨readReg_zero s, fun _ h => readReg_of_ne_zero s h⟩

end Sys2Proof.Proofs.Registers
end

section
/-! SUPPORT. Proofs about memory (20_memory.md): the number a load reads and the bytes a store leaves. -/

namespace Sys2Proof.Proofs.MemoryAccess
open Sys2Proof.Machine

/-! ## The number a load reads -/

/-- R55's sum, from the byte-by-byte recursion of the model. -/
theorem readLE_eq_sum (s : State) (a n : Nat) :
    s.readLE a n = ∑ i ∈ Finset.range n, (s.readByte (a + i)).toNat * 2 ^ (8 * i) := by
  induction n generalizing a with
  | zero => rfl
  | succ n ih =>
    have shift (i : Nat) : (s.readByte (a + (i + 1))).toNat * 2 ^ (8 * (i + 1)) =
        256 * ((s.readByte (a + 1 + i)).toNat * 2 ^ (8 * i)) := by
      rw [show a + (i + 1) = a + 1 + i by omega]; ring
    rw [Finset.sum_range_succ']
    simp only [shift, ← Finset.mul_sum, ← ih]
    simp [State.readLE, Nat.add_comm]

theorem width_le_eight {c : Config} {addr : Word} {n : Nat} (h : ValidAccess c addr n) : n ≤ 8 := by
  obtain ⟨hn, -⟩ := h
  omega

/-- At most eight bytes are read, so the 64-bit result holds their number whole: a load zero-extends. -/
theorem toNat_ofNat_readLE {s : State} {n : Nat} (a : Nat) (h : n ≤ 8) :
    (BitVec.ofNat 64 (s.readLE a n)).toNat = s.readLE a n := by
  have fits : s.readLE a n < 2 ^ 64 := calc
    s.readLE a n < 256 ^ n := readLE_lt s a n
    _ ≤ 256 ^ 8 := Nat.pow_le_pow_right (by decide) h
    _ = 2 ^ 64 := by norm_num
  rw [BitVec.toNat_ofNat, Nat.mod_eq_of_lt fits]

/-- Settles O34: the value is the number `readLE` reads, which is the sum and fits in 64 bits. -/
theorem loadReadsLittleEndian : Obligations.LoadReadsLittleEndian :=
  fun s addr n h => ⟨BitVec.ofNat 64 (s.readLE addr.toNat n), memRead_valid h, by
    rw [toNat_ofNat_readLE _ (width_le_eight h), readLE_eq_sum]⟩

/-! ## The bytes a store leaves -/

/-- Byte `i` of a word as a number is the word's bits `8i+7` to `8i`. -/
theorem ofNat_byte_eq_extractLsb' (v : Word) (i : Nat) :
    BitVec.ofNat 8 (v.toNat / 256 ^ i) = v.extractLsb' (8 * i) 8 := by
  rw [BitVec.extractLsb', Nat.shiftRight_eq_div_pow, pow_mul, show 2 ^ 8 = 256 from rfl]

theorem readByte_of_lookup_eq_some {s : State} {a : Nat} {b : Byte} (h : Memory.lookup s.mem a = some b) :
    s.readByte a = b := by
  rw [State.readByte, h]

/-- A byte depends on the memory list only through what is listed at its address. -/
theorem readByte_setMem_of_lookup_eq (s : State) {m : Memory} {a : Nat}
    (h : Memory.lookup m a = Memory.lookup s.mem a) : ({ s with mem := m } : State).readByte a = s.readByte a := by
  simp only [State.readByte, h]

theorem readByte_putLE_inside (s : State) (a : Nat) (v : Word) {n i : Nat} (h : i < n) :
    ({ s with mem := Memory.putLE s.mem a v.toNat n } : State).readByte (a + i) = v.extractLsb' (8 * i) 8 := by
  rw [← ofNat_byte_eq_extractLsb']
  exact readByte_of_lookup_eq_some (lookup_putLE_inside _ _ _ _ _ h)

theorem readByte_putLE_outside (s : State) {a n a' : Nat} (v : Nat) (h : a' < a ∨ a + n ≤ a') :
    ({ s with mem := Memory.putLE s.mem a v n } : State).readByte a' = s.readByte a' :=
  readByte_setMem_of_lookup_eq s (lookup_putLE_outside _ _ _ _ _ h)

/-- Settles O35: a valid store only puts its bytes into the memory list, where each is read back and the others are as before. -/
theorem storeWritesItsBytes : Obligations.StoreWritesItsBytes :=
  fun s addr v _ h => ⟨_, memWrite_valid v h, fun _ hi => readByte_putLE_inside s addr.toNat v hi,
    fun _ ha => readByte_putLE_outside s v.toNat ha, rfl⟩

end Sys2Proof.Proofs.MemoryAccess
end

section
/-! SUPPORT. Proofs about the fields of an instruction word and the five immediate decoders (30_encoding.md sections 1 and 2). -/

namespace Sys2Proof.Proofs.WordFields

/-! ## Fields of any bit vector -/

/-- R91's extraction: a field of `n` bits is the word shifted right and masked with `n` ones. -/
theorem setWidth_extractLsb'_eq_shift_and_mask {v : Nat} (x : BitVec v) (k n : Nat) (h : n ≤ v) :
    (x.extractLsb' k n).setWidth v = (x >>> k) &&& BitVec.ofNat v (2 ^ n - 1) := by
  have fits : 2 ^ n ≤ 2 ^ v := Nat.pow_le_pow_right (by decide) h
  have positive : 0 < 2 ^ n := Nat.two_pow_pos n
  have field : x.toNat >>> k % 2 ^ n < 2 ^ n := Nat.mod_lt _ positive
  apply BitVec.eq_of_toNat_eq
  rw [BitVec.toNat_setWidth, BitVec.extractLsb'_toNat, BitVec.toNat_and, BitVec.toNat_ushiftRight, BitVec.toNat_ofNat,
    Nat.mod_eq_of_lt (a := 2 ^ n - 1) (by omega), Nat.and_two_pow_sub_one_eq_mod, Nat.mod_eq_of_lt (by omega)]

/-- The topmost `n` bits, as a signed number, are the whole shifted right arithmetically by the `k` bits below them. -/
theorem toInt_topField {v n k : Nat} (hv : n + k = v) (hn : n ≠ 0) (x : BitVec v) :
    (x.extractLsb' k n).toInt = x.toInt / 2 ^ k := by
  subst hv
  have below : ((x.extractLsb' 0 k).toNat : Int) < 2 ^ k := mod_cast (x.extractLsb' 0 k).isLt
  have parts : x.toInt = (x.extractLsb' 0 k).toNat + 2 ^ k * (x.extractLsb' k n).toInt := calc
    x.toInt = (x.extractLsb' k n ++ x.extractLsb' 0 k).toInt := by rw [BitVec.extractLsb'_append_extractLsb']
    _ = _ := by rw [BitVec.toInt_append, if_neg (by simpa using hn), Int.add_comm]
  rw [parts, Int.add_mul_ediv_left _ _ (by positivity), Int.ediv_eq_zero_of_lt (by positivity) below, Int.zero_add]

theorem msb_topField {v n k : Nat} (hv : n + k = v) (hn : n ≠ 0) (x : BitVec v) : (x.extractLsb' k n).msb = x.msb := by
  simp [BitVec.msb, show 0 < n by omega, show v - (k + n) = 0 by omega, show k + n ≤ v by omega]

/-- From its own top position up, a sign extension repeats the sign bit. -/
theorem getLsbD_signExtend_of_top_le {v u k : Nat} (x : BitVec v) (hu : k < u) (hk : v - 1 ≤ k) :
    (x.signExtend u).getLsbD k = x.msb := by
  rw [BitVec.getLsbD_signExtend, decide_eq_true hu, Bool.true_and]
  split
  case isTrue inside => rw [BitVec.msb_eq_getLsbD_last, show k = v - 1 by omega]
  case isFalse => rfl

/-! ## The six fields -/

/-- The six fields of R91 lie side by side: each join closes the gap to the field below, and the last one leaves the word. -/
theorem word_eq_fields (w : Word32) :
    w = funct7Of w ++ w.extractLsb' 20 5 ++ w.extractLsb' 15 5 ++ funct3Of w ++ w.extractLsb' 7 5 ++ opcodeOf w := by
  rw [funct7Of, funct3Of, opcodeOf,
    BitVec.extractLsb'_append_extractLsb'_eq_extractLsb' (show 25 = 20 + 5 from rfl),
    BitVec.extractLsb'_append_extractLsb'_eq_extractLsb' (show 20 = 15 + 5 from rfl),
    BitVec.extractLsb'_append_extractLsb'_eq_extractLsb' (show 15 = 12 + 3 from rfl),
    BitVec.extractLsb'_append_extractLsb'_eq_extractLsb' (show 12 = 7 + 5 from rfl),
    BitVec.extractLsb'_append_extractLsb'_eq_extractLsb' (show 7 = 0 + 7 from rfl)]
  exact BitVec.extractLsb'_eq_self.symm

/-- Settles O23: each field is the general law of shift and mask at its place and width, and joined they are the word. -/
theorem fieldsTileTheWord : Obligations.FieldsTileTheWord := fun w =>
  ⟨setWidth_extractLsb'_eq_shift_and_mask w 0 7 (by decide), setWidth_extractLsb'_eq_shift_and_mask w 7 5 (by decide),
    setWidth_extractLsb'_eq_shift_and_mask w 12 3 (by decide), setWidth_extractLsb'_eq_shift_and_mask w 15 5 (by decide),
    setWidth_extractLsb'_eq_shift_and_mask w 20 5 (by decide), setWidth_extractLsb'_eq_shift_and_mask w 25 7 (by decide),
    word_eq_fields w⟩

/-! ## The sign of the immediates -/

theorem msb_append_of_ne_zero {n m : Nat} (hn : n ≠ 0) (x : BitVec n) (y : BitVec m) : (x ++ y).msb = x.msb := by
  rw [BitVec.msb_append, if_neg hn]

/-- Settles O24: the gathered bits of each immediate begin with the word's topmost field, so with `word[31]`, and the sign
extension repeats their first bit. -/
theorem immediatesTakeSignFromBit31 : Obligations.ImmediatesTakeSignFromBit31 := by
  intro w k hk
  rw [← BitVec.msb_eq_getLsbD_last w]
  refine ⟨fun top => ?_, fun top => ?_, fun top => ?_, fun top => ?_, fun top => ?_⟩
  all_goals refine (getLsbD_signExtend_of_top_le _ hk top).trans ?_
  all_goals simp (disch := decide) only [imm12Of, msb_append_of_ne_zero, msb_topField]

/-! ## The values of the I, S and U immediates -/

theorem toInt_immI (w : Word32) : (immI w).toInt = w.toInt / 2 ^ 20 := by
  rw [immI, BitVec.toInt_signExtend_of_le (by decide), imm12Of, toInt_topField rfl (by decide)]

theorem toInt_immS (w : Word32) :
    (immS w).toInt = w.toInt / 2 ^ 25 * 2 ^ 5 + ((w.toNat / 2 ^ 7 % 2 ^ 5 : Nat) : Int) := by
  rw [immS, BitVec.toInt_signExtend_of_le (by decide), BitVec.toInt_append, if_neg (by decide), toInt_topField rfl (by decide),
    BitVec.extractLsb'_toNat, Nat.shiftRight_eq_div_pow, Int.mul_comm]

theorem toInt_immU (w : Word32) : (immU w).toInt = w.toInt / 2 ^ 12 * 2 ^ 12 := by
  rw [immU, BitVec.toInt_signExtend_of_le (by decide), BitVec.toInt_append_zero, toInt_topField rfl (by decide), Int.mul_comm]

/-- Settles O25: the ranges follow from the values, the word being a signed 32-bit number. -/
theorem immediateISUValues : Obligations.ImmediateISUValues := by
  intro w
  have low : -2 ^ 31 ≤ w.toInt := w.le_toInt
  have high : w.toInt < 2 ^ 31 := w.toInt_lt
  rw [toInt_immI, toInt_immS, toInt_immU]
  omega

end Sys2Proof.Proofs.WordFields
end

section
/-! SUPPORT. Proofs about the decoder's dispatch (30_encoding.md section 3): which row of the opcode table a word decodes by. -/

namespace Sys2Proof.Proofs.Dispatch

theorem mnemonic_build (m : Mnemonic) (w : Word32) : (m.build w).mnemonic = m := by cases m <;> rfl

theorem accepts_of_mnemonicOf {w : Word32} {m : Mnemonic} (h : mnemonicOf w = some m) : m.enc.accepts w = true :=
  List.find?_some (p := fun m : Mnemonic => m.enc.accepts w) h

theorem opcodeOf_of_accepts {w : Word32} {e : Enc} (h : e.accepts w = true) : opcodeOf w = e.opcode :=
  ((accepts_iff e w).mp h).1

theorem mnemonicOf_eq_none_iff {w : Word32} : mnemonicOf w = none ↔ ∀ m : Mnemonic, ¬ m.enc.accepts w = true := by
  rw [mnemonicOf, List.find?_eq_none]
  exact ⟨fun h m => h m (mem_all m), fun h m _ => h m⟩

theorem decodeWord_of_mnemonicOf_none {w : Word32} (h : mnemonicOf w = none) :
    decodeWord w = .unimplemented w (illegalCase w) := by
  rw [decodeWord, h]

/-- A decoded instruction is built from the row its word matched, and so carries that row's name. -/
theorem mnemonicOf_of_decodeWord {w : Word32} {i : Instr} (h : decodeWord w = .instr i) : mnemonicOf w = some i.mnemonic := by
  cases hm : mnemonicOf w with
  | some m =>
    rw [decodeWord, hm] at h
    rw [← Decoded.instr.inj h, mnemonic_build]
  | none =>
    rw [decodeWord_of_mnemonicOf_none hm] at h
    cases h

/-- The rows of the table grouped by opcode: the immediate and the register-register handler, each for both widths (R102). -/
theorem enc_opcode_cases (m : Mnemonic) :
    (m.enc.opcode = 0b0010011#7 ∧ m ∈ [.addi, .slti, .sltiu, .xori, .ori, .andi, .slli, .srli, .srai]) ∨
    (m.enc.opcode = 0b0011011#7 ∧ m ∈ [.addiw, .slliw, .srliw, .sraiw]) ∨
    (m.enc.opcode = 0b0110011#7 ∧ m ∈ [.add, .sub, .sll, .slt, .sltu, .xor, .srl, .sra, .or, .and]) ∨
    (m.enc.opcode = 0b0111011#7 ∧ m ∈ [.addw, .subw, .sllw, .srlw, .sraw]) := by
  cases m <;> decide

theorem enc_opcode_mem (m : Mnemonic) : m.enc.opcode ∈ [0x13#7, 0x1b#7, 0x33#7, 0x3b#7] := by
  cases m <;> decide

/-- The six selector bits of the 64-bit immediate shifts are the upper six of funct7. -/
theorem sel6Of_eq_of_funct7Of_eq {w w' : Word32} (h : funct7Of w' = funct7Of w) : sel6Of w' = sel6Of w := by
  have upper (x : Word32) : sel6Of x = (funct7Of x).extractLsb' 1 6 := by
    simp only [sel6Of, funct7Of]; ext j hj
    simp [show 1 + j < 7 by omega, ← Nat.add_assoc]
  rw [upper, upper, h]

/-- What a row compares is opcode, funct3 and (part of) funct7. -/
theorem accepts_congr {w w' : Word32} (ho : opcodeOf w' = opcodeOf w) (h3 : funct3Of w' = funct3Of w)
    (h7 : funct7Of w' = funct7Of w) (e : Enc) : e.accepts w' = e.accepts w := by
  have upper : e.upper.accepts w' = e.upper.accepts w := by
    cases e.upper with
    | free => rfl
    | sel6 v => rw [Upper.accepts, Upper.accepts, sel6Of_eq_of_funct7Of_eq h7]
    | sel7 v => rw [Upper.accepts, Upper.accepts, h7]
  rw [Enc.accepts, Enc.accepts, ho, h3, upper]

theorem mnemonicOf_congr {w w' : Word32} (ho : opcodeOf w' = opcodeOf w) (h3 : funct3Of w' = funct3Of w)
    (h7 : funct7Of w' = funct7Of w) : mnemonicOf w' = mnemonicOf w := by
  simp only [mnemonicOf, accepts_congr ho h3 h7]

/-- A word of a fifth opcode matches no row, so it falls under case (a) of R108. -/
theorem decodeWord_of_other_opcode {w : Word32} (h : opcodeOf w ∉ [0x13#7, 0x1b#7, 0x33#7, 0x3b#7]) :
    decodeWord w = .unimplemented w .opcode := by
  have noRow : mnemonicOf w = none := mnemonicOf_eq_none_iff.mpr fun m hm =>
    h (opcodeOf_of_accepts hm ▸ enc_opcode_mem m)
  have caseA : illegalCase w = .opcode := by
    simp only [List.mem_cons, List.not_mem_nil, or_false, not_or] at h
    obtain ⟨h13, h1b, h33, h3b⟩ := h
    simp [illegalCase, opImm, opImm32, op, op32, h13, h1b, h33, h3b]
  rw [decodeWord_of_mnemonicOf_none noRow, caseA]

/-- Settles O27: a decoded word has the opcode of its instruction's row, rows are matched on the three fields, and no row has a
fifth opcode. -/
theorem fourOpcodesDispatch : Obligations.FourOpcodesDispatch := by
  refine ⟨fun w i h => ?_, fun _ _ => mnemonicOf_congr, fun _ => decodeWord_of_other_opcode⟩
  rw [opcodeOf_of_accepts (accepts_of_mnemonicOf (mnemonicOf_of_decodeWord h))]
  exact enc_opcode_cases i.mnemonic

end Sys2Proof.Proofs.Dispatch
end

section
/-! SUPPORT. Proofs about `Fetch` and `Execute` (40_fetch_decode_dispatch.md): the word a `Fetch` reads, and the state an
`Execute` depends on. -/

namespace Sys2Proof.Proofs.FetchExecute
open Sys2Proof.Machine

/-! ## The word a Fetch reads -/

/-- R54 for four bytes: their little-endian number is that of the word they make, highest address first. -/
theorem readLE_four (s : State) (a : Nat) : s.readLE a 4 = (s.wordAt a).toNat := by
  have joined {m : Nat} (x : BitVec m) (b : Byte) : (x ++ b).toNat = b.toNat + 256 * x.toNat := by
    rw [BitVec.toNat_append, ← Nat.shiftLeft_add_eq_or_of_lt b.isLt, Nat.shiftLeft_eq]
    omega
  simp only [State.wordAt, wordOfBytes, joined, State.readLE, Nat.add_assoc, Nat.mul_zero, Nat.add_zero, Nat.reduceAdd]

/-- A valid 32-bit load answers the word at its address, zero-extended. -/
theorem memRead_four {s : State} {addr : Word} (h : ValidAccess s.cfg addr 4) :
    s.memRead addr 4 = ((s.wordAt addr.toNat).setWidth 64, s) := by
  rw [memRead_valid h, readLE_four, BitVec.ofNat_toNat]

theorem fetch_valid {s : State} (hr : s.ready = true) (hh : s.halted = false) (h : ValidAccess s.cfg s.pc 4) :
    fetch s = .next (s.wordAt s.pc.toNat, s) := by
  simp [fetch, hr, hh, memRead_four h, ← BitVec.setWidth_eq_extractLsb']

/-- Settles O39: the load zero-extends the word at `pc`, so its low half is that word again. -/
theorem fetchReadsWordAtPc : Obligations.FetchReadsWordAtPc := by
  intro s hr hh h
  refine ⟨fetch_valid hr hh h, _, memRead_four h, ?_⟩
  rw [fetch_valid hr hh h, BitVec.setWidth_setWidth_of_le _ (by decide), BitVec.setWidth_eq]

/-! ## The state an Execute depends on -/

theorem execute_of_decodeWord {w : Word32} {i : Instr} {s : State} (hd : decodeWord w = .instr i) (hr : s.ready = true)
    (hh : s.halted = false) : execute w s = exec i s := by
  simp [execute, hr, hh, hd]

/-- The value an instruction computes is a function of the registers it reads: two states with the same register values get the
same one. -/
theorem exec_complete_of_readReg_eq (i : Instr) {s u : State} (h : ∀ r, u.readReg r = s.readReg r) :
    ∃ v, exec i s = complete i.rd v s ∧ exec i u = complete i.rd v u := by
  cases i <;> refine ⟨_, rfl, ?_⟩ <;>
    simp only [exec, Instr.rd, h,
      execAddi, execSlti, execSltiu, execXori, execOri, execAndi, execSlli, execSrli, execSrai,
      execAddiw, execSlliw, execSrliw, execSraiw,
      execAdd, execSub, execSll, execSlt, execSltu, execXor, execSrl, execSra, execOr, execAnd,
      execAddw, execSubw, execSllw, execSrlw, execSraw]

theorem readReg_writeReg_congr {s u : State} (h : ∀ r, u.readReg r = s.readReg r) (rd : Reg) (v : Word) (r : Reg) :
    (u.writeReg rd v).readReg r = (s.writeReg rd v).readReg r := by
  by_cases other : r ≠ rd ∨ rd = 0
  · rw [readReg_writeReg_other u rd r v other, readReg_writeReg_other s rd r v other, h]
  · obtain ⟨rfl, nonzero⟩ : r = rd ∧ rd ≠ 0 := by simpa using other
    rw [readReg_writeReg_same u r v nonzero, readReg_writeReg_same s r v nonzero]

/-- An instruction that answers `t` from `s` completes in every state with the same register values, and leaves the registers
as in `t`. -/
theorem exec_next_of_readReg_eq {i : Instr} {s t u : State} (h : ∀ r, u.readReg r = s.readReg r) (ht : exec i s = .next t) :
    ∃ t', exec i u = .next t' ∧ OnlyWrites i.rd u t' ∧ ∀ r, t'.readReg r = t.readReg r := by
  obtain ⟨v, hs, hu⟩ := exec_complete_of_readReg_eq i h
  obtain rfl := Host.Outcome.next.inj (hs.symm.trans ht)
  exact ⟨_, hu, complete_frame i.rd v u, readReg_writeReg_congr h i.rd v⟩

/-- Settles O20: the one write is the frame of the instruction; another memory, `pc` and `fault` leave the register values as they
are, so the same instruction writes the same value there, within its frame again. -/
theorem successfulExecuteOneSideEffect : Obligations.SuccessfulExecuteOneSideEffect := by
  intro w i s hd hr hh
  obtain ⟨v, ht⟩ := exec_complete i s
  have frame := complete_frame i.rd v s
  refine ⟨_, (execute_of_decodeWord hd hr hh).trans ht, frame, frame.halted.trans hh, fun m g p f => ?_⟩
  let u : State := { s with mem := m, image := g, pc := p, fault := f }
  have sameRegs : ∀ r, u.readReg r = s.readReg r := readReg_congr rfl
  obtain ⟨t', ht', frame', regs⟩ := exec_next_of_readReg_eq sameRegs ht
  exact ⟨t', (execute_of_decodeWord (s := u) hd hr hh).trans ht', regs, frame'.status.trans frame.status.symm, frame'.fault,
    frame'.pc⟩

end Sys2Proof.Proofs.FetchExecute
end


section
/-! SUPPORT. Proofs about the OP-IMM family (41_op_imm.md). -/

namespace Sys2Proof.Proofs.OpImm
open Sys2Proof.Machine

/-! ## The word of an ADDI -/

theorem regBits_eq_ofNat (r : Reg) : regBits r = BitVec.ofNat 5 r.val := BitVec.ofFin_eq_ofNat

/-- ADDI stands first in the table, so no other row is tried on its word. -/
theorem mnemonicOf_addi (rd rs1 : Reg) (imm : BitVec 12) : mnemonicOf (encode (.addi rd rs1 imm)) = some .addi :=
  List.find?_cons_of_pos (Laws.EncodingFitsTable.addi rd rs1 imm)

theorem decodeWord_encode_addi (rd rs1 : Reg) (imm : BitVec 12) :
    decodeWord (encode (.addi rd rs1 imm)) = .instr (.addi rd rs1 imm) := by
  rw [decodeWord, mnemonicOf_addi]
  simp only [Mnemonic.build, encode, rdOf_wordI, rs1Of_wordI, imm12Of_wordI]

/-! ## The immediate operand -/

theorem toInt_sextImm (imm : BitVec 12) : (sextImm imm).toInt = imm.toInt :=
  BitVec.toInt_signExtend_of_le (by decide)

/-- Sign extension keeps the signed value (R96), and the unsigned value is its residue. -/
theorem toNat_sextImm (imm : BitVec 12) : ((sextImm imm).toNat : Int) = imm.toInt % 2 ^ 64 := calc
  ((sextImm imm).toNat : Int) = (sextImm imm).toNat % 2 ^ 64 :=
    (Int.emod_eq_of_lt (Int.natCast_nonneg _) (mod_cast (sextImm imm).isLt)).symm
  _ = (sextImm imm).toInt % 2 ^ 64 := by rw [BitVec.toInt_eq_toNat_bmod]; exact Int.bmod_emod.symm
  _ = imm.toInt % 2 ^ 64 := by rw [toInt_sextImm]

/-- Settles O7: the immediate enters the sum of naturals modulo 2^64 as its residue. -/
theorem addiAddsImmediate : Obligations.AddiAddsImmediate := by
  refine ⟨fun rd rs1 imm => ?_, fun s rd rs1 imm => .of_complete (v := s.readReg rs1 + sextImm imm) rfl ?_⟩
  · rw [← regBits_eq_ofNat, ← regBits_eq_ofNat]
    exact decodeWord_encode_addi rd rs1 imm
  · calc
      ((s.readReg rs1 + sextImm imm).toNat : Int) = ((s.readReg rs1).toNat + (sextImm imm).toNat) % 2 ^ 64 := by
        rw [BitVec.toNat_add]; norm_cast
      _ = ((s.readReg rs1).toNat + imm.toInt) % 2 ^ 64 := by rw [toNat_sextImm, Int.add_emod_emod]

end Sys2Proof.Proofs.OpImm
end

section
/-! SUPPORT. Proofs about the word-width instructions of OP-IMM-32 and OP-32 (42_op_imm_32.md R174): what their results are in
plain arithmetic. -/

namespace Sys2Proof.Proofs.WordWidth
open Sys2Proof.Machine

/-! ## The operands and the result -/

theorem toInt_sextWord (r : Word32) : (sextWord r).toInt = r.toInt :=
  BitVec.toInt_signExtend_of_le (by decide)

theorem toNat_lowWord (v : Word) : (lowWord v).toNat = v.toNat % 2 ^ 32 :=
  BitVec.extractLsb'_toNat 0 32 v

theorem toInt_lowWord (v : Word) : (lowWord v).toInt = Int.bmod (v.toNat % 2 ^ 32 : Nat) (2 ^ 32) := by
  rw [BitVec.toInt_eq_toNat_bmod, toNat_lowWord]

theorem shamt5_eq_mod (v : Word) : shamt5 v = v.toNat % 32 :=
  BitVec.extractLsb'_toNat 0 5 v

/-- The low word of a sign-extended immediate is the immediate sign-extended to a word: bits 31 to 12 repeat bit 11 in both. -/
theorem lowWord_sextImm (imm : BitVec 12) : lowWord (sextImm imm) = imm.signExtend 32 := by
  ext k hk
  simp [lowWord, sextImm, BitVec.getElem_signExtend, show k < 64 by omega]

theorem toInt_lowWord_sextImm (imm : BitVec 12) : (lowWord (sextImm imm)).toInt = imm.toInt := by
  rw [lowWord_sextImm, BitVec.toInt_signExtend_of_le (by decide)]

/-! ## The operations -/

theorem toInt_sextWord_addImm (v : Word) (imm : BitVec 12) :
    (sextWord (lowWord v + lowWord (sextImm imm))).toInt = Int.bmod ((v.toNat % 2 ^ 32 : Nat) + imm.toInt) (2 ^ 32) := by
  rw [toInt_sextWord, BitVec.toInt_add, toInt_lowWord, toInt_lowWord_sextImm, Int.bmod_add_bmod]

theorem toInt_sextWord_add (v u : Word) :
    (sextWord (lowWord v + lowWord u)).toInt = Int.bmod (v.toNat % 2 ^ 32 + u.toNat % 2 ^ 32 : Nat) (2 ^ 32) := by
  rw [toInt_sextWord, BitVec.toInt_add, toInt_lowWord, toInt_lowWord, ← Int.add_bmod, Int.natCast_add]

theorem toInt_sextWord_sub (v u : Word) :
    (sextWord (lowWord v - lowWord u)).toInt =
      Int.bmod ((v.toNat % 2 ^ 32 : Nat) - (u.toNat % 2 ^ 32 : Nat)) (2 ^ 32) := by
  rw [toInt_sextWord, BitVec.toInt_sub, toInt_lowWord, toInt_lowWord, ← Int.sub_bmod]

theorem toInt_sextWord_shiftLeft (v : Word) (n : Nat) :
    (sextWord (lowWord v <<< n)).toInt = Int.bmod (v.toNat % 2 ^ 32 * 2 ^ n : Nat) (2 ^ 32) := by
  rw [toInt_sextWord, BitVec.toInt_shiftLeft, toNat_lowWord, Nat.shiftLeft_eq]

theorem toInt_sextWord_ushiftRight (v : Word) (n : Nat) :
    (sextWord (lowWord v >>> n)).toInt = Int.bmod (v.toNat % 2 ^ 32 / 2 ^ n : Nat) (2 ^ 32) := by
  rw [toInt_sextWord, BitVec.toInt_eq_toNat_bmod, BitVec.toNat_ushiftRight, toNat_lowWord, Nat.shiftRight_eq_div_pow]

theorem toInt_sextWord_sshiftRight (v : Word) (n : Nat) :
    (sextWord ((lowWord v).sshiftRight n)).toInt = Int.bmod (v.toNat % 2 ^ 32 : Nat) (2 ^ 32) / 2 ^ n := by
  rw [toInt_sextWord, BitVec.toInt_sshiftRight, toInt_lowWord, Int.shiftRight_eq_div_pow, Nat.cast_pow, Nat.cast_ofNat]

/-- Settles O16: each instruction completes with the sign extension of one operation on low words, whose value is said above for
every shift amount; a register gives its value modulo 32 as the amount. -/
theorem wordWidthLaw : Obligations.WordWidthLaw := by
  intro s rd rs1 rs2
  rw [← shamt5_eq_mod]
  exact ⟨
    fun imm => .of_complete rfl (toInt_sextWord_addImm _ imm),
    fun sh _ => .of_complete rfl (toInt_sextWord_shiftLeft _ sh),
    fun sh _ => .of_complete rfl (toInt_sextWord_ushiftRight _ sh),
    fun sh _ => .of_complete rfl (toInt_sextWord_sshiftRight _ sh),
    .of_complete rfl (toInt_sextWord_add _ _),
    .of_complete rfl (toInt_sextWord_sub _ _),
    .of_complete rfl (toInt_sextWord_shiftLeft _ _),
    .of_complete rfl (toInt_sextWord_ushiftRight _ _),
    .of_complete rfl (toInt_sextWord_sshiftRight _ _)⟩

end Sys2Proof.Proofs.WordWidth
end

section
/-! SUPPORT. Proofs about the OP family (43_op.md). -/

namespace Sys2Proof.Proofs.Op
open Sys2Proof.Machine

/-! ## The word of an ADD -/

theorem rs2Of_wordR (e : Enc) (rd rs1 rs2 : Reg) : rs2Of (e.wordR rd rs1 rs2) = rs2 := by
  rw [rs2Of, rs2Bits_eq, Enc.wordR, imm12Of_wordI, low_of_append]
  rfl

/-- The thirteen rows before ADD in the table belong to the immediate families. -/
theorem enc_opcode_ne_op_of_mem_take : ∀ m ∈ Mnemonic.all.take 13, op ≠ m.enc.opcode := by
  decide

/-- Every row tried before ADD is rejected by the word's opcode. -/
theorem mnemonicOf_add (rd rs1 rs2 : Reg) : mnemonicOf (encode (.add rd rs1 rs2)) = some .add := by
  have opcode : opcodeOf (encode (.add rd rs1 rs2)) = op := opcodeOf_wordI ..
  refine List.find?_eq_some_iff_append.mpr
    ⟨Laws.EncodingFitsTable.add rd rs1 rs2, Mnemonic.all.take 13, Mnemonic.all.drop 14, rfl, fun m earlier => ?_⟩
  rw [Bool.not_eq_true', Bool.eq_false_iff]
  exact fun accepted =>
    enc_opcode_ne_op_of_mem_take m earlier (opcode.symm.trans (Dispatch.opcodeOf_of_accepts accepted))

theorem decodeWord_encode_add (rd rs1 rs2 : Reg) :
    decodeWord (encode (.add rd rs1 rs2)) = .instr (.add rd rs1 rs2) := by
  have rdField : rdOf (encode (.add rd rs1 rs2)) = rd := rdOf_wordI ..
  have rs1Field : rs1Of (encode (.add rd rs1 rs2)) = rs1 := rs1Of_wordI ..
  have rs2Field : rs2Of (encode (.add rd rs1 rs2)) = rs2 := rs2Of_wordR ..
  rw [decodeWord, mnemonicOf_add]
  simp only [Mnemonic.build, rdField, rs1Field, rs2Field]

/-- Settles O11: the word is the encoder's, which decodes to its ADD, and the sum of 64-bit words is that of their numbers modulo
2^64. -/
theorem addAddsRegisters : Obligations.AddAddsRegisters := by
  refine ⟨fun rd rs1 rs2 => ?_, fun s rd rs1 rs2 => .of_complete rfl (BitVec.toNat_add (s.readReg rs1) (s.readReg rs2))⟩
  have word : encode (.add rd rs1 rs2) = 0b0000000#7 ++ BitVec.ofNat 5 rs2.val ++ BitVec.ofNat 5 rs1.val ++ 0b000#3 ++
      BitVec.ofNat 5 rd.val ++ 0b0110011#7 := by
    simp only [← OpImm.regBits_eq_ofNat]
    rfl
  rw [← word, decodeWord_encode_add]

end Sys2Proof.Proofs.Op
end

section
/-! SUPPORT. Proofs about the decoder and the encoder (30_encoding.md): no two rows of the opcode table share a word, the two
round trips, and the patterns of section 3. -/

namespace Sys2Proof.Proofs.RoundTrip

/-! ## No two rows share a word -/

/-- Two demands on the upper bits that no word meets at once. -/
def upperApart : Upper → Upper → Bool
  | .sel6 v, .sel6 v' => v != v'
  | .sel7 v, .sel7 v' => v != v'
  | _, _ => false

/-- Two rows that differ in a field which both compare. -/
def rowsApart (e e' : Enc) : Bool :=
  e.opcode != e'.opcode || e.funct3 != e'.funct3 || upperApart e.upper e'.upper

theorem not_accepts_of_upperApart {u u' : Upper} (h : upperApart u u' = true) {w : Word32} (hu : u.accepts w = true) :
    ¬ u'.accepts w = true := by
  intro hu'
  cases u <;> cases u' <;> simp_all [upperApart, Upper.accepts]

theorem not_accepts_of_rowsApart {e e' : Enc} (h : rowsApart e e' = true) {w : Word32} (he : e.accepts w = true) :
    ¬ e'.accepts w = true := by
  rw [accepts_iff] at he ⊢
  obtain ⟨opcode, funct3, upper⟩ := he
  rintro ⟨opcode', funct3', upper'⟩
  simp only [rowsApart, ← opcode, ← opcode', ← funct3, ← funct3', bne_self_eq_false, Bool.false_or] at h
  exact not_accepts_of_upperApart h upper upper'

theorem rowsApart_of_ne : ∀ m ∈ Mnemonic.all, ∀ m' ∈ Mnemonic.all, m ≠ m' → rowsApart m.enc m'.enc = true := by
  decide

/-- A word fits one row at most. -/
theorem accepts_unique {w : Word32} {m m' : Mnemonic} (h : m.enc.accepts w = true) (h' : m'.enc.accepts w = true) : m' = m := by
  by_contra differ
  exact not_accepts_of_rowsApart (rowsApart_of_ne m (mem_all m) m' (mem_all m') (Ne.symm differ)) h h'

/-- The first row that accepts a word is the only one. -/
theorem mnemonicOf_of_accepts {w : Word32} {m : Mnemonic} (h : m.enc.accepts w = true) : mnemonicOf w = some m := by
  cases found : mnemonicOf w with
  | none => exact absurd h (Dispatch.mnemonicOf_eq_none_iff.mp found m)
  | some m' => rw [accepts_unique h (Dispatch.accepts_of_mnemonicOf found)]

/-- Settles O29: two rows always differ in a field both compare, so the row the decoder finds first is the one the word fits. -/
theorem eachWordFitsAtMostOneRow : Obligations.EachWordFitsAtMostOneRow :=
  fun _ _ h => ⟨mnemonicOf_of_accepts h, fun _ h' => accepts_unique h h'⟩

/-! ## Decoding an encoded instruction -/

theorem encode_accepts (i : Instr) : i.mnemonic.enc.accepts (encode i) = true := by
  cases i with
  | addi | slti | sltiu | xori | ori | andi | addiw => exact accepts_wordI _ _ _ _ rfl
  | slli | srli | srai => exact accepts_wordSh64 _ _ _ _ _ rfl
  | slliw | srliw | sraiw => exact accepts_wordSh32 _ _ _ _ _ rfl
  | add | sub | sll | slt | sltu | xor | srl | sra | or | and => exact accepts_wordR _ _ _ _ _ rfl
  | addw | subw | sllw | srlw | sraw => exact accepts_wordR _ _ _ _ _ rfl

theorem shamt6Of_wordSh64 (e : Enc) (rd rs1 : Reg) {sh : Nat} (h : sh < 64) : shamt6Of (e.wordSh64 rd rs1 sh) = sh := by
  rw [shamt6Of, shamt6Bits_eq, Enc.wordSh64, imm12Of_wordI, low_of_append, BitVec.toNat_ofNat, Nat.mod_eq_of_lt h]

theorem shamt5Of_wordSh32 (e : Enc) (rd rs1 : Reg) {sh : Nat} (h : sh < 32) : shamt5Of (e.wordSh32 rd rs1 sh) = sh := by
  rw [shamt5Of, rs2Bits_eq, Enc.wordSh32, imm12Of_wordI, low_of_append, BitVec.toNat_ofNat, Nat.mod_eq_of_lt h]

/-- The operands read from an encoded word are those it was made of. -/
theorem build_encode (i : Instr) (h : i.wellFormed = true) : i.mnemonic.build (encode i) = i := by
  cases i with
  | addi | slti | sltiu | xori | ori | andi | addiw =>
    simp only [Instr.mnemonic, Mnemonic.build, encode, rdOf_wordI, rs1Of_wordI, imm12Of_wordI]
  | slli | srli | srai =>
    simp only [Instr.mnemonic, Mnemonic.build, encode, shamt6Of_wordSh64 _ _ _ (of_decide_eq_true h)]
    simp only [Enc.wordSh64, rdOf_wordI, rs1Of_wordI]
  | slliw | srliw | sraiw =>
    simp only [Instr.mnemonic, Mnemonic.build, encode, shamt5Of_wordSh32 _ _ _ (of_decide_eq_true h)]
    simp only [Enc.wordSh32, rdOf_wordI, rs1Of_wordI]
  | add | sub | sll | slt | sltu | xor | srl | sra | or | and | addw | subw | sllw | srlw | sraw =>
    simp only [Instr.mnemonic, Mnemonic.build, encode, Op.rs2Of_wordR]
    simp only [Enc.wordR, rdOf_wordI, rs1Of_wordI]

theorem decodeWord_of_accepts {w : Word32} {m : Mnemonic} (h : m.enc.accepts w = true) : decodeWord w = .instr (m.build w) := by
  rw [decodeWord, mnemonicOf_of_accepts h]

theorem decodeWord_encode (i : Instr) (h : i.wellFormed = true) : decodeWord (encode i) = .instr i := by
  rw [decodeWord_of_accepts (encode_accepts i), build_encode i h]

theorem wordOfBytes_bytesOfWord (w : Word32) :
    wordOfBytes (w.extractLsb' 0 8) (w.extractLsb' 8 8) (w.extractLsb' 16 8) (w.extractLsb' 24 8) = w := by
  rw [wordOfBytes, BitVec.extractLsb'_append_extractLsb'_eq_extractLsb' (show 24 = 16 + 8 from rfl),
    BitVec.extractLsb'_append_extractLsb'_eq_extractLsb' (show 16 = 8 + 8 from rfl),
    BitVec.extractLsb'_append_extractLsb'_eq_extractLsb' (show 8 = 0 + 8 from rfl)]
  exact BitVec.extractLsb'_eq_self

theorem decodeBytes_bytesOfWord (w : Word32) (rest : List Byte) :
    decodeBytes (bytesOfWord w ++ rest) = .decoded (decodeWord w) rest := by
  simp only [bytesOfWord, List.cons_append, List.nil_append, decodeBytes, wordOfBytes_bytesOfWord]

/-- Settles O30: the encoded word fits the instruction's row and no other, the row's fields hold the operands, and the four bytes
join to the word again. -/
theorem decodeOfEncode : Obligations.DecodeOfEncode := fun i h =>
  ⟨decodeWord_encode i h, fun rest => by rw [encodeBytes, decodeBytes_bytesOfWord, decodeWord_encode i h]⟩

/-! ## Encoding a decoded instruction -/

/-- The twelve upper bits of a word and the four fields below them are the whole word. -/
theorem word_eq_imm12_fields (w : Word32) :
    w = imm12Of w ++ regBits (rs1Of w) ++ funct3Of w ++ regBits (rdOf w) ++ opcodeOf w := by
  have upper : imm12Of w = funct7Of w ++ w.extractLsb' 20 5 :=
    (BitVec.extractLsb'_append_extractLsb'_eq_extractLsb' (show 25 = 20 + 5 from rfl)).symm
  rw [upper]
  exact WordFields.word_eq_fields w

section
variable {w : Word32} {e : Enc} (fits : e.accepts w = true)
include fits

theorem wordI_of_accepts {imm : BitVec 12} (himm : imm = imm12Of w) : e.wordI (rdOf w) (rs1Of w) imm = w := by
  obtain ⟨opcode, funct3, -⟩ := (accepts_iff e w).mp fits
  rw [Enc.wordI, himm, ← opcode, ← funct3]
  exact (word_eq_imm12_fields w).symm

theorem wordSh64_of_accepts {v : BitVec 6} (h : e.upper = .sel6 v) : e.wordSh64 (rdOf w) (rs1Of w) (shamt6Of w) = w := by
  obtain ⟨-, -, upper⟩ := (accepts_iff e w).mp fits
  rw [h] at upper
  have selector : e.sel6 = sel6Of w := by rw [Enc.sel6, h, ← eq_of_beq upper]
  refine wordI_of_accepts fits ?_
  rw [selector, shamt6Of, BitVec.ofNat_toNat, BitVec.setWidth_eq]
  exact BitVec.extractLsb'_append_extractLsb'_eq_extractLsb' rfl

theorem funct7Of_append_of_accepts {v : BitVec 7} (h : e.upper = .sel7 v) : e.sel7 ++ w.extractLsb' 20 5 = imm12Of w := by
  obtain ⟨-, -, upper⟩ := (accepts_iff e w).mp fits
  rw [h] at upper
  have selector : e.sel7 = funct7Of w := by rw [Enc.sel7, h, ← eq_of_beq upper]
  rw [selector]
  exact BitVec.extractLsb'_append_extractLsb'_eq_extractLsb' rfl

theorem wordSh32_of_accepts {v : BitVec 7} (h : e.upper = .sel7 v) : e.wordSh32 (rdOf w) (rs1Of w) (shamt5Of w) = w := by
  refine wordI_of_accepts fits ?_
  rw [shamt5Of, BitVec.ofNat_toNat, BitVec.setWidth_eq]
  exact funct7Of_append_of_accepts fits h

theorem wordR_of_accepts {v : BitVec 7} (h : e.upper = .sel7 v) : e.wordR (rdOf w) (rs1Of w) (rs2Of w) = w :=
  wordI_of_accepts fits (funct7Of_append_of_accepts fits h)

end

theorem wellFormed_build (m : Mnemonic) (w : Word32) : (m.build w).wellFormed = true := by
  have six : shamt6Of w < 64 := BitVec.isLt _
  have five : shamt5Of w < 32 := BitVec.isLt _
  cases m <;> simp [Mnemonic.build, Instr.wellFormed, six, five]

theorem encode_build {w : Word32} {m : Mnemonic} (h : m.enc.accepts w = true) : encode (m.build w) = w := by
  cases m with
  | addi | slti | sltiu | xori | ori | andi | addiw => exact wordI_of_accepts h rfl
  | slli | srli | srai => exact wordSh64_of_accepts h rfl
  | slliw | srliw | sraiw => exact wordSh32_of_accepts h rfl
  | add | sub | sll | slt | sltu | xor | srl | sra | or | and => exact wordR_of_accepts h rfl
  | addw | subw | sllw | srlw | sraw => exact wordR_of_accepts h rfl

/-- A word that decodes is built by the row it fits. -/
theorem accepts_and_build_of_decodeWord {w : Word32} {i : Instr} (h : decodeWord w = .instr i) :
    i.mnemonic.enc.accepts w = true ∧ i.mnemonic.build w = i := by
  have fits := Dispatch.accepts_of_mnemonicOf (Dispatch.mnemonicOf_of_decodeWord h)
  exact ⟨fits, Decoded.instr.inj ((decodeWord_of_accepts fits).symm.trans h)⟩

/-- Settles O31: the instruction is the one its row builds from the word, whose fixed bits the row has compared and whose other
bits are its operands. -/
theorem encodeOfDecode : Obligations.EncodeOfDecode := by
  intro w i h
  obtain ⟨fits, built⟩ := accepts_and_build_of_decodeWord h
  rw [← built]
  exact ⟨wellFormed_build _ w, encode_build fits⟩

/-! ## Written-out words -/

theorem decodeWord_of_encode_eq {w : Word32} {i : Instr} (hi : i.wellFormed = true) (h : encode i = w) :
    decodeWord w = .instr i := by
  rw [← h, decodeWord_encode i hi]

theorem ofNat_toNat_self {n : Nat} (x : BitVec n) : BitVec.ofNat n x.toNat = x := by
  rw [BitVec.ofNat_toNat, BitVec.setWidth_eq]

/-- A pattern of format I-shift64 is the word of its instruction: the amount's six bits come back from their number. -/
theorem wordSh64_toNat (e : Enc) (rd rs1 : Reg) (sh : BitVec 6) : e.wordSh64 rd rs1 sh.toNat = e.wordI rd rs1 (e.sel6 ++ sh) := by
  rw [Enc.wordSh64, ofNat_toNat_self]

theorem wordSh32_toNat (e : Enc) (rd rs1 : Reg) (sh : BitVec 5) : e.wordSh32 rd rs1 sh.toNat = e.wordI rd rs1 (e.sel7 ++ sh) := by
  rw [Enc.wordSh32, ofNat_toNat_self]

/-- Settles O60: every pattern is, field for field, the encoder's word of its instruction. -/
theorem patternsDecode : Obligations.PatternsDecode := by
  intro rd rs1 rs2 sh5 sh6 imm
  have six : decide (sh6.toNat < 64) = true := decide_eq_true sh6.isLt
  have five : decide (sh5.toNat < 32) = true := decide_eq_true sh5.isLt
  refine ⟨?_, ?_, ?_, ?_, ?_, ?_, ?_, ?_, ?_, ?_, ?_, ?_, ?_, ?_, ?_, ?_, ?_, ?_, ?_, ?_, ?_, ?_, ?_, ?_, ?_, ?_, ?_, ?_⟩
  case refine_7 | refine_8 | refine_9 => exact decodeWord_of_encode_eq six (wordSh64_toNat ..)
  case refine_11 | refine_12 | refine_13 => exact decodeWord_of_encode_eq five (wordSh32_toNat ..)
  all_goals exact decodeWord_of_encode_eq rfl rfl

/-- Settles O33: each of the first five words is its instruction's encoding, and the last has none of the four opcodes. -/
theorem writtenOutWordsDecode : Obligations.WrittenOutWordsDecode :=
  ⟨decodeWord_of_encode_eq rfl rfl, decodeWord_of_encode_eq rfl rfl, decodeWord_of_encode_eq rfl rfl,
    decodeWord_of_encode_eq rfl rfl, decodeWord_of_encode_eq rfl rfl, Dispatch.decodeWord_of_other_opcode (by decide)⟩

/-! ## Words by shifts -/

/-- Joining two bit vectors is shifting the upper one over the lower (R93), in whatever width the result is read. -/
theorem setWidth_append {n m : Nat} (x : BitVec n) (y : BitVec m) (v : Nat) :
    (x ++ y).setWidth v = (x.setWidth v <<< m) ||| y.setWidth v := by
  ext k hk
  simp only [BitVec.getElem_setWidth, BitVec.getLsbD_append, BitVec.getElem_or, BitVec.getElem_shiftLeft]
  by_cases low : k < m
  · simp [low]
  · simp [low, BitVec.getLsbD_of_ge y k (by omega)]

theorem setWidth_regBits (r : Reg) : (regBits r).setWidth 32 = BitVec.ofNat 32 r.val := by
  rw [OpImm.regBits_eq_ofNat, BitVec.setWidth_ofNat_of_le_of_lt (by decide) r.isLt]

theorem wordI_eq_shifts (e : Enc) (rd rs1 : Reg) (imm : BitVec 12) : e.wordI rd rs1 imm =
    (imm.setWidth 32 <<< 20) ||| ((BitVec.ofNat 32 rs1.val) <<< 15) ||| (e.funct3.setWidth 32 <<< 12) |||
      ((BitVec.ofNat 32 rd.val) <<< 7) ||| e.opcode.setWidth 32 := by
  calc
    e.wordI rd rs1 imm = (imm ++ regBits rs1 ++ e.funct3 ++ regBits rd ++ e.opcode).setWidth 32 := (BitVec.setWidth_eq _).symm
    _ = _ := by
      rw [setWidth_append, setWidth_append, setWidth_append, setWidth_append, setWidth_regBits, setWidth_regBits]
      simp only [BitVec.shiftLeft_or_distrib, ← BitVec.shiftLeft_add, Nat.reduceAdd]

/-- Settles O32: the shifts of the joined fields add up; format R is format I with funct7 and rs2 as the upper twelve bits. -/
theorem encodedWordsByShiftFormula : Obligations.EncodedWordsByShiftFormula := by
  refine ⟨fun e rd rs1 rs2 => ?_, wordI_eq_shifts⟩
  rw [Enc.wordR, wordI_eq_shifts, setWidth_append, setWidth_regBits, BitVec.shiftLeft_or_distrib, ← BitVec.shiftLeft_add]

end Sys2Proof.Proofs.RoundTrip
end

section
/-! SUPPORT. Proofs about the words that are no instruction (30_encoding.md section 4). -/

namespace Sys2Proof.Proofs.Unimplemented
open Sys2Proof.Machine RoundTrip

theorem decodeWord_unimplemented_iff {w w' : Word32} {c : IllegalCase} :
    decodeWord w = .unimplemented w' c ↔ mnemonicOf w = none ∧ w' = w ∧ illegalCase w = c := by
  rw [decodeWord]
  cases mnemonicOf w with
  | none => simp [eq_comm]
  | some m => simp

/-- The four opcodes are different, so the case of R108 names its opcode. -/
theorem illegalCase_iff (w : Word32) :
    (illegalCase w = .opcode ↔ opcodeOf w ≠ 0x13#7 ∧ opcodeOf w ≠ 0x1b#7 ∧ opcodeOf w ≠ 0x33#7 ∧ opcodeOf w ≠ 0x3b#7) ∧
    (illegalCase w = .slliSelector ↔ opcodeOf w = 0x13#7 ∧ funct3Of w = 0b001#3) ∧
    (illegalCase w = .srliSraiSelector ↔ opcodeOf w = 0x13#7 ∧ funct3Of w ≠ 0b001#3) ∧
    (illegalCase w = .opImm32Funct3 ↔ opcodeOf w = 0x1b#7 ∧ funct3Of w ≠ 0b001#3 ∧ funct3Of w ≠ 0b101#3) ∧
    (illegalCase w = .slliwSelector ↔ opcodeOf w = 0x1b#7 ∧ funct3Of w = 0b001#3) ∧
    (illegalCase w = .srliwSraiwSelector ↔ opcodeOf w = 0x1b#7 ∧ funct3Of w = 0b101#3) ∧
    (illegalCase w = .opPair ↔ opcodeOf w = 0x33#7) ∧ (illegalCase w = .op32Pair ↔ opcodeOf w = 0x3b#7) := by
  by_cases h13 : opcodeOf w = 0x13#7
  · by_cases h1 : funct3Of w = 0b001#3 <;> simp [illegalCase, opImm, h13, h1]
  by_cases h1b : opcodeOf w = 0x1b#7
  · by_cases h1 : funct3Of w = 0b001#3
    · simp [illegalCase, opImm, opImm32, h1b, h1]
    · by_cases h5 : funct3Of w = 0b101#3 <;> simp [illegalCase, opImm, opImm32, h1b, h1, h5]
  by_cases h33 : opcodeOf w = 0x33#7
  · simp [illegalCase, opImm, opImm32, op, h33]
  by_cases h3b : opcodeOf w = 0x3b#7 <;> simp [illegalCase, opImm, opImm32, op, op32, h13, h1b, h33, h3b]

/-- Every row of the table is tried on a word, by its opcode, its funct3 and its upper bits. -/
theorem mnemonicOf_eq_none_iff_rows {w : Word32} :
    mnemonicOf w = none ↔ ∀ m ∈ Mnemonic.all, opcodeOf w = m.enc.opcode → funct3Of w = m.enc.funct3 →
      ¬ m.enc.upper.accepts w = true := by
  simp only [Dispatch.mnemonicOf_eq_none_iff, accepts_iff, not_and]
  exact ⟨fun h m _ => h m, fun h m => h m (mem_all m)⟩

theorem funct3_cases (f : BitVec 3) : f = 0 ∨ f = 1 ∨ f = 2 ∨ f = 3 ∨ f = 4 ∨ f = 5 ∨ f = 6 ∨ f = 7 := by
  revert f; decide

theorem noRow_opImm_iff {w : Word32} (h : opcodeOf w = 0x13#7) :
    mnemonicOf w = none ↔ (funct3Of w = 0b001#3 ∧ sel6Of w ≠ 0b000000#6) ∨
      (funct3Of w = 0b101#3 ∧ sel6Of w ≠ 0b000000#6 ∧ sel6Of w ≠ 0b010000#6) := by
  rw [mnemonicOf_eq_none_iff_rows]
  simp only [Mnemonic.all, List.forall_mem_cons, h, Mnemonic.enc, opImm, opImm32, op, op32, Upper.accepts, BitVec.reduceEq]
  rcases funct3_cases (funct3Of w) with f | f | f | f | f | f | f | f <;> simp [f]

theorem noRow_opImm32_iff {w : Word32} (h : opcodeOf w = 0x1b#7) :
    mnemonicOf w = none ↔ funct3Of w ∈ [0b010#3, 0b011#3, 0b100#3, 0b110#3, 0b111#3] ∨
      (funct3Of w = 0b001#3 ∧ funct7Of w ≠ 0b0000000#7) ∨
      (funct3Of w = 0b101#3 ∧ funct7Of w ≠ 0b0000000#7 ∧ funct7Of w ≠ 0b0100000#7) := by
  rw [mnemonicOf_eq_none_iff_rows]
  simp only [Mnemonic.all, List.forall_mem_cons, h, Mnemonic.enc, opImm, opImm32, op, op32, Upper.accepts, BitVec.reduceEq]
  rcases funct3_cases (funct3Of w) with f | f | f | f | f | f | f | f <;> simp [f]

theorem noRow_op_iff {w : Word32} (h : opcodeOf w = 0x33#7) :
    mnemonicOf w = none ↔ (funct3Of w, funct7Of w) ∉
      [(0b000#3, 0b0000000#7), (0b000#3, 0b0100000#7), (0b001#3, 0b0000000#7), (0b010#3, 0b0000000#7), (0b011#3, 0b0000000#7),
       (0b100#3, 0b0000000#7), (0b101#3, 0b0000000#7), (0b101#3, 0b0100000#7), (0b110#3, 0b0000000#7), (0b111#3, 0b0000000#7)] := by
  rw [mnemonicOf_eq_none_iff_rows]
  simp [h, Mnemonic.all, Mnemonic.enc, opImm, opImm32, op, op32, Upper.accepts]

theorem noRow_op32_iff {w : Word32} (h : opcodeOf w = 0x3b#7) :
    mnemonicOf w = none ↔ (funct3Of w, funct7Of w) ∉
      [(0b000#3, 0b0000000#7), (0b000#3, 0b0100000#7), (0b001#3, 0b0000000#7), (0b101#3, 0b0000000#7), (0b101#3, 0b0100000#7)] := by
  rw [mnemonicOf_eq_none_iff_rows]
  simp [h, Mnemonic.all, Mnemonic.enc, opImm, opImm32, op, op32, Upper.accepts]

/-- A case of R108 that names one opcode: the words of that opcode which are in it. -/
theorem unimplemented_iff_of_opcode {w : Word32} {c : IllegalCase} {o : BitVec 7} {P Q : Prop}
    (named : illegalCase w = c ↔ opcodeOf w = o ∧ P) (words : opcodeOf w = o → (mnemonicOf w = none ∧ P ↔ Q)) :
    decodeWord w = .unimplemented w c ↔ opcodeOf w = o ∧ Q := by
  rw [decodeWord_unimplemented_iff, named]
  simp only [true_and]
  rw [and_left_comm, and_congr_right words]

theorem execute_of_unimplemented {w w' : Word32} {c : IllegalCase} {s : State} (hd : decodeWord w = .unimplemented w' c)
    (hr : s.ready = true) (hh : s.halted = false) : execute w s = .next (s.raiseIllegal w) := by
  have same : w' = w := (decodeWord_unimplemented_iff.mp hd).2.1
  simp [execute, hr, hh, hd, same]

theorem decodeWord_total (w : Word32) : (∃ i, decodeWord w = .instr i) ∨ ∃ c, decodeWord w = .unimplemented w c := by
  cases h : mnemonicOf w with
  | none => exact .inr ⟨_, Dispatch.decodeWord_of_mnemonicOf_none h⟩
  | some m => exact .inl ⟨_, decodeWord_of_accepts (Dispatch.accepts_of_mnemonicOf h)⟩

/-- Settles O28: a case holds of the words of its opcode that fit none of that opcode's rows. -/
theorem unimplementedWordCases : Obligations.UnimplementedWordCases := by
  intro w
  obtain ⟨other, slli, srli, imm32, slliw, srliw, pair, pair32⟩ := illegalCase_iff w
  refine ⟨?_, unimplemented_iff_of_opcode slli fun o => ?_, unimplemented_iff_of_opcode srli fun o => ?_,
    unimplemented_iff_of_opcode imm32 fun o => ?_, unimplemented_iff_of_opcode slliw fun o => ?_,
    unimplemented_iff_of_opcode srliw fun o => ?_, unimplemented_iff_of_opcode (P := True) (by simpa using pair) fun o => ?_,
    unimplemented_iff_of_opcode (P := True) (by simpa using pair32) fun o => ?_, decodeWord_total w,
    fun _ _ => execute_of_unimplemented⟩
  · refine ⟨fun h => other.mp (decodeWord_unimplemented_iff.mp h).2.2, fun h => Dispatch.decodeWord_of_other_opcode ?_⟩
    simpa using h
  · rw [noRow_opImm_iff o]
    by_cases f : funct3Of w = 0b001#3 <;> simp [f]
  · rw [noRow_opImm_iff o]
    by_cases f : funct3Of w = 0b001#3 <;> simp [f]
  · rw [noRow_opImm32_iff o]
    by_cases f : funct3Of w = 0b001#3
    · simp [f]
    · by_cases f' : funct3Of w = 0b101#3 <;> simp [f, f']
  · rw [noRow_opImm32_iff o]
    by_cases f : funct3Of w = 0b001#3 <;> simp [f]
  · rw [noRow_opImm32_iff o]
    by_cases f : funct3Of w = 0b101#3 <;> simp [f]
  · rw [noRow_op_iff o, and_true]
  · rw [noRow_op32_iff o, and_true]

end Sys2Proof.Proofs.Unimplemented
end

section
/-! SUPPORT. Proofs about what every step and every driver operation keeps (70_reset_and_hazards.md R266 to R268): the invariant
State.Inv, and who may change the flags, `pc` and memory. -/

namespace Sys2Proof.Proofs.Driver
open Sys2Proof.Machine

/-! ## What a driver operation does -/

/-- The state a driver operation leaves, where it answers. -/
inductive DriveEffect (s : State) : DriverOp → State → Prop where
  | unchanged (op : DriverOp) : DriveEffect s op s
  | faulted (op : DriverOp) : DriveEffect s op s.setFault
  | memoryInit (buffer : Option (List Byte)) : DriveEffect s (.memoryInit buffer) (s.memoryInit buffer)
  | busInit (live : s.memLive = true) : DriveEffect s (.busInit true) { s with busBound := true }
  | hartInit (bound : s.busBound = true) : DriveEffect s (.hartInit true) s.hartInit
  | execute (w : Word32) (t : State) (h : Machine.execute w s = .next t) : DriveEffect s (.execute w) t
  | store (addr : Word) (width : Nat) (v : Word) (valid : ValidAccess s.cfg addr (bytesOfWidth width)) (bound : s.busBound = true) :
      DriveEffect s (.store addr width v) { s with mem := Memory.putLE s.mem addr.toNat v.toNat (bytesOfWidth width) }
  | advancePc : DriveEffect s .advancePc s.advancePc
  | setPc (target : Word) : DriveEffect s (.setPc target) { s with pc := target }
  | hartDeinit : DriveEffect s .hartDeinit { s with ready := false }
  | busDeinit (stopped : s.ready = false) : DriveEffect s .busDeinit { s with busBound := false }
  | memoryDeinit (unbound : s.busBound = false) : DriveEffect s .memoryDeinit { s with memLive := false, mem := [] }

theorem drive_effect {op : DriverOp} {s t : State} {a : Answer} (h : drive op s = .next (a, t)) : DriveEffect s op t := by
  cases op <;> simp only [drive] at h
  case memoryInit buffer => cases h; exact .memoryInit buffer
  case busInit given =>
    split_ifs at h with accepted <;> cases h
    · obtain ⟨rfl, live⟩ : given = true ∧ s.memLive = true := by simpa using accepted
      exact .busInit live
    · exact .unchanged _
  case hartInit given =>
    split_ifs at h with accepted <;> cases h
    · obtain ⟨rfl, bound⟩ : given = true ∧ s.busBound = true := by simpa using accepted
      exact .hartInit bound
    · exact .unchanged _
  case fetch =>
    split at h <;> cases h
    next fetched =>
      rcases fetch_next fetched with rfl | rfl
      · exact .unchanged _
      · exact .faulted _
  case execute w =>
    split at h <;> cases h
    next executed => exact .execute w t executed
  case load addr width =>
    split_ifs at h <;> cases h
    · rcases memRead_cases s addr (bytesOfWidth width) with ⟨-, same⟩ | ⟨-, fault⟩
      · rw [same]; exact .unchanged _
      · rw [fault]; exact .faulted _
    · exact .unchanged _
  case store addr width v =>
    split_ifs at h with bound
    · by_cases valid : ValidAccess s.cfg addr (bytesOfWidth width)
      · rw [memWrite_valid v valid] at h; cases h; exact .store addr width v valid bound
      · rw [memWrite_invalid v valid] at h; cases h; exact .unchanged _
    · cases h; exact .unchanged _
  case advancePc => cases h; exact .advancePc
  case setPc target => cases h; exact .setPc target
  case hartDeinit =>
    split_ifs at h; cases h
    exact .hartDeinit
  case busDeinit =>
    split_ifs at h with _ ready <;> cases h
    · exact .unchanged _
    · exact .busDeinit (Bool.eq_false_iff.mpr ready)
  case memoryDeinit =>
    split_ifs at h with _ bound <;> cases h
    · exact .unchanged _
    · exact .memoryDeinit (Bool.eq_false_iff.mpr bound)

/-! ## The invariant -/

theorem inv_setFault {s : State} (h : s.Inv) : s.setFault.Inv := { h with }

theorem inv_setStatus {s : State} (h : s.Inv) (q : Status) : (s.setStatus q).Inv := { h with }

theorem inv_writeReg {s : State} (h : s.Inv) (r : Reg) (v : Word) : (s.writeReg r v).Inv := by
  have zero : (s.writeReg r v).regs[0] = 0 := (slotZero_writeReg s r v).trans h.slotZero
  unfold State.writeReg at zero ⊢
  split
  case isTrue => exact h
  case isFalse nonzero => exact { h with slotZero := by simpa [nonzero] using zero }

theorem inv_raiseIllegal {s : State} (h : s.Inv) (w : Word32) : (s.raiseIllegal w).Inv := by
  unfold State.raiseIllegal
  split
  case h_1 strict => exact { h with haltedStrict := fun _ => strict }
  case h_2 => exact { h with }

theorem inv_afterExecute {s : State} (h : s.Inv) : s.afterExecute.Inv := by
  unfold State.afterExecute
  split
  case isTrue => exact { h with }
  case isFalse => exact h

theorem inv_execute {w : Word32} {s t : State} (h : s.Inv) (executed : execute w s = .next t) : t.Inv := by
  rcases execute_next executed with rfl | ⟨r, v, rfl⟩ | rfl
  · exact inv_setStatus h _
  · exact inv_setStatus (inv_writeReg h r v) _
  · exact inv_raiseIllegal h w

/-- Settles O48: a step is a Fetch, which may set `fault`, an Execute and the driver's increment, and each keeps the invariant. -/
theorem stepKeepsInv : Obligations.StepKeepsInv := by
  intro s t h stepped
  obtain ⟨w, u, v, fetched, executed, rfl⟩ := step_next stepped
  have afterFetch : u.Inv := by
    rcases fetch_next fetched with rfl | rfl
    · exact h
    · exact inv_setFault h
  exact inv_afterExecute (inv_execute afterFetch executed)

theorem inv_memoryInit {s : State} (h : s.Inv) (buffer : Option (List Byte)) : (s.memoryInit buffer).Inv :=
  { h with
    memCanonical := memoryInit_wf s buffer
    memInWindow := fun c hc => by
      obtain ⟨low, high⟩ := mem_ofBytes hc
      have room := List.length_take_le s.cfg.capacity (buffer.getD [])
      exact ⟨low, lt_of_lt_of_le high (Nat.add_le_add_left room _)⟩
    noImage := nofun
    boundLive := fun _ => rfl }

theorem inv_hartInit {s : State} (h : s.Inv) (bound : s.busBound = true) : s.hartInit.Inv :=
  { h with
    slotZero := rfl
    haltedStrict := nofun
    readyBound := fun _ => bound }

/-- A valid store lists bytes of the window only. -/
theorem inv_store {s : State} (h : s.Inv) {addr : Word} {n : Nat} (v : Nat) (valid : ValidAccess s.cfg addr n)
    (bound : s.busBound = true) : ({ s with mem := Memory.putLE s.mem addr.toNat v n } : State).Inv :=
  { h with
    memCanonical := putLE_wf h.memCanonical _ _ _
    memInWindow := fun c hc => by
      obtain ⟨-, low, high⟩ := valid
      rcases mem_putLE hc with stored | listed
      · exact ⟨low.trans stored.1, stored.2.trans_le high⟩
      · exact h.memInWindow c listed
    noImage := fun dead => absurd (h.boundLive bound) (by simp [show s.memLive = false from dead]) }

/-- Settles O49: `memory.init` and `store` keep memory in the window, and `ready`, the Bus and the memory are given up in the
reverse of the order in which they need each other. -/
theorem driverKeepsInv : Obligations.DriverKeepsInv := by
  intro op s t a h driven
  cases drive_effect driven with
  | unchanged => exact h
  | faulted => exact inv_setFault h
  | memoryInit buffer => exact inv_memoryInit h buffer
  | busInit live => exact { h with readyBound := fun _ => rfl, boundLive := fun _ => live }
  | hartInit bound => exact inv_hartInit h bound
  | execute w _ executed => exact inv_execute h executed
  | store addr width v valid bound => exact inv_store h v.toNat valid bound
  | advancePc => exact { h with }
  | setPc => exact { h with }
  | hartDeinit => exact { h with readyBound := nofun }
  | busDeinit stopped =>
    exact { h with
      readyBound := fun ready => absurd (show s.ready = true from ready) (by simp [stopped])
      boundLive := nofun }
  | memoryDeinit unbound =>
    exact { h with
      memCanonical := .nil
      memInWindow := nofun
      noImage := fun _ => rfl
      boundLive := fun bound => absurd (show s.busBound = true from bound) (by simp [unbound]) }

/-! ## What an Execute and a step leave as it was -/

/-- What decides the bytes of memory, and the parameters. -/
structure SameMemory (s t : State) : Prop where
  cfg : t.cfg = s.cfg
  mem : t.mem = s.mem
  image : t.image = s.image

theorem SameMemory.readByte {s t : State} (h : SameMemory s t) (a : Nat) : t.readByte a = s.readByte a :=
  readByte_congr h.mem h.image h.cfg a

theorem execute_sameMemory {w : Word32} {s t : State} (h : execute w s = .next t) : SameMemory s t := by
  rcases execute_next h with rfl | ⟨r, v, rfl⟩ | rfl <;> constructor <;> simp

theorem step_sameMemory {s t : State} (h : step s = .next t) : SameMemory s t := by
  obtain ⟨w, u, v, fetched, executed, rfl⟩ := step_next h
  obtain ⟨cfg, mem, image⟩ := execute_sameMemory executed
  rcases fetch_next fetched with rfl | rfl <;> constructor <;> simp [cfg, mem, image]

theorem execute_pc {w : Word32} {s t : State} (h : execute w s = .next t) : t.pc = s.pc := by
  rcases execute_next h with rfl | ⟨r, v, rfl⟩ | rfl <;> simp

/-! ## `fault` -/

theorem execute_fault {w : Word32} {s t : State} (h : execute w s = .next t) : t.fault = s.fault := by
  rcases execute_next h with rfl | ⟨r, v, rfl⟩ | rfl <;> simp

/-- Settles O50: `hart.init` is the one effect that clears the flag. -/
theorem faultStickyUntilReset : Obligations.FaultStickyUntilReset := by
  refine ⟨fun op s t a set driven clear => ?_, fun s t set stepped => ?_⟩
  · cases drive_effect driven with
    | hartInit => rfl
    | execute w _ executed => simp [execute_fault executed, set] at clear
    | _ => simp [set, State.memoryInit] at clear
  · obtain ⟨w, u, v, fetched, executed, rfl⟩ := step_next stepped
    rw [afterExecute_fault, execute_fault executed]
    rcases fetch_next fetched with rfl | rfl
    · exact set
    · rfl

/-! ## `halted` -/

/-- The one way an Execute changes `halted`. -/
theorem execute_halted {w : Word32} {s t : State} (h : execute w s = .next t) :
    t.halted = s.halted ∨
      (t.halted = true ∧ s.cfg.illegalMode = .strict ∧ s.ready = true ∧ ∃ c, decodeWord w = .unimplemented w c) := by
  rcases execute_cases w s with ⟨-, e⟩ | ⟨-, -, e⟩ | ⟨-, -, i, v, -, e⟩ | ⟨ready, running, unimplemented, e⟩ <;>
    rw [e] at h <;> cases h
  · exact .inl rfl
  · exact .inl (by simp)
  · by_cases strict : s.cfg.illegalMode = .strict
    · exact .inr ⟨by simp [raiseIllegal_halted, strict], strict, ready, unimplemented⟩
    · exact .inl (by simp [raiseIllegal_halted, strict])

theorem flag_rules_of_unchanged {f f' : Bool} {P Q : Prop} (same : f' = f) :
    (f = false → f' = true → P) ∧ (f = true → f' = false → Q) := by
  subst same
  exact ⟨fun clear set => absurd (clear.symm.trans set) (by decide), fun set clear => absurd (set.symm.trans clear) (by decide)⟩

/-- Settles O51: only the effects of `hart.init` and `hart.execute` change the flag. -/
theorem onlyIllegalInstructionHalts : Obligations.OnlyIllegalInstructionHalts := by
  intro op s t a driven
  cases drive_effect driven with
  | hartInit => exact ⟨nofun, fun _ _ => rfl⟩
  | execute w _ executed =>
    rcases execute_halted executed with same | ⟨set, strict, ready, c, unimplemented⟩
    · exact flag_rules_of_unchanged same
    · exact ⟨fun _ _ => ⟨strict, ready, w, c, rfl, unimplemented⟩, fun _ clear => by simp [set] at clear⟩
  | _ => exact flag_rules_of_unchanged rfl

/-! ## `pc` -/

theorem toNat_add_pcStep (pc : Word) (n : Nat) : (pc + BitVec.ofNat 64 n).toNat = (pc.toNat + n) % 2 ^ 64 := by
  rw [BitVec.toNat_add, BitVec.toNat_ofNat, Nat.add_mod_mod]

/-- Settles O52: the Execute of an operation or a step leaves `pc`, and what the driver adds to it is taken modulo 2^64. -/
theorem pcMovesOnlyByDriver : Obligations.PcMovesOnlyByDriver := by
  refine ⟨fun op s t a driven => ?_, fun s t stepped => ?_⟩
  · cases drive_effect driven with
    | hartInit => exact .inr (.inl ⟨rfl, rfl⟩)
    | advancePc => exact .inr (.inr (.inl ⟨rfl, toNat_add_pcStep s.pc s.cfg.pcStep⟩))
    | setPc target => exact .inr (.inr (.inr ⟨target, rfl, rfl⟩))
    | execute w _ executed => exact .inl (execute_pc executed)
    | _ => exact .inl rfl
  · obtain ⟨w, u, v, fetched, executed, rfl⟩ := step_next stepped
    have beforeIncrement : v.pc = s.pc ∧ v.cfg = s.cfg := by
      rw [execute_pc executed, (execute_sameMemory executed).cfg]
      rcases fetch_next fetched with rfl | rfl <;> exact ⟨rfl, rfl⟩
    obtain ⟨pc, cfg⟩ := beforeIncrement
    rw [afterExecute_pc, pc, cfg]
    split
    · exact .inr (toNat_add_pcStep s.pc s.cfg.pcStep)
    · exact .inl rfl

/-! ## Memory -/

/-- Settles O53: every effect but those of the three operations leaves the memory list and its image, by which alone a byte is
read. -/
theorem memoryChangesOnlyByDriver : Obligations.MemoryChangesOnlyByDriver := by
  refine ⟨fun op s t a driven => ?_, fun s t stepped => ?_⟩
  · cases drive_effect driven with
    | memoryInit buffer => exact ⟨rfl, .inr (.inr (.inl ⟨buffer, rfl⟩))⟩
    | store addr width v => exact ⟨rfl, .inr (.inl ⟨addr, width, v, rfl⟩)⟩
    | memoryDeinit => exact ⟨rfl, .inr (.inr (.inr rfl))⟩
    | execute w _ executed => exact ⟨(execute_sameMemory executed).cfg, .inl (execute_sameMemory executed).readByte⟩
    | _ => exact ⟨rfl, .inl fun _ => rfl⟩
  · have same := step_sameMemory stepped
    exact ⟨same.cfg, same.mem, same.readByte⟩

end Sys2Proof.Proofs.Driver
end

section
/-! SUPPORT. Proofs about reset, boot and power-down (10_state.md section 8, 70_reset_and_hazards.md sections 1 and 2). -/

namespace Sys2Proof.Proofs.Boot
open Sys2Proof.Machine

/-! ## Reset -/

theorem readReg_hartInit_of_ne_two (s : State) {r : Reg} (h : r ≠ 2) : s.hartInit.readReg r = 0 := by
  have other : 2 ≠ r.val := fun e => h (Fin.ext e.symm)
  simp [State.readReg, State.hartInit, Vector.getElem_set_ne, other]

theorem toNat_readReg_hartInit_two (s : State) :
    (s.hartInit.readReg 2).toNat = (s.cfg.base.toNat + s.cfg.capacity) % 2 ^ 64 :=
  BitVec.toNat_ofNat ..

/-- The state after reset is the one `hart.init` makes of it. -/
theorem hartInit_reset : State.reset.hartInit = State.reset := by decide

/-- Settles O1: the values of `hart.init` in the default window. -/
theorem resetStateValues : Obligations.ResetStateValues := by
  refine ⟨fun r h => ?_, ?_, rfl, rfl, rfl, rfl⟩
  · rw [← hartInit_reset, readReg_hartInit_of_ne_two _ h]
  · rfl

/-- Settles O2: nothing is listed in memory, the window is the default one, and all three blocks are initialised. -/
theorem resetStateMeetsInv : Obligations.ResetStateMeetsInv where
  window := by decide
  memCanonical := .nil
  memInWindow := nofun
  noImage := nofun
  slotZero := rfl
  haltedStrict := nofun
  readyBound := fun _ => rfl
  boundLive := fun _ => rfl

theorem drive_hartInit {s : State} (bound : s.busBound = true) : drive (.hartInit true) s = .next (.ok, s.hartInit) := by
  simp [drive, bound]

theorem drive_busInit {s : State} (live : s.memLive = true) :
    drive (.busInit true) s = .next (.ok, { s with busBound := true }) := by
  simp [drive, live]

/-- Settles O3: with a bound Bus `hart.init` is the reset, which sets the Hart's fields and no other. -/
theorem hartInitGivesResetValues : Obligations.HartInitGivesResetValues := fun s bound =>
  ⟨s.hartInit, drive_hartInit bound, fun _ => readReg_hartInit_of_ne_two s, toNat_readReg_hartInit_two s, rfl, rfl, rfl, rfl,
    fun _ => rfl, rfl, rfl, bound, rfl⟩

/-! ## Boot -/

/-- A new image holds the buffer's bytes from BASE on; the offsets past the buffer are free. -/
theorem readByte_memoryInit (s : State) (buffer : Option (List Byte)) {k : Nat} (h : k < s.cfg.capacity) :
    (s.memoryInit buffer).readByte (s.cfg.base.toNat + k) =
      ((buffer.getD [])[k]?).getD (Config.memInit (s.memoryInit buffer).image k) := by
  have listed : Memory.lookup (s.memoryInit buffer).mem (s.cfg.base.toNat + k) = (buffer.getD [])[k]? := by
    rw [State.memoryInit, lookup_ofBytes, List.getElem?_take_of_lt h]
  have offset : s.cfg.base.toNat + k - (s.memoryInit buffer).cfg.base.toNat = k := Nat.add_sub_cancel_left ..
  rw [State.readByte, listed, offset]
  cases (buffer.getD [])[k]? <;> rfl

/-- Settles O4: each of the three answers `ok` since the one before has run; the last is the reset, and memory is the first's new
image. -/
theorem bootGivesInitialState : Obligations.BootGivesInitialState := by
  intro s buffer
  let booted : State := { s.memoryInit buffer with busBound := true }
  refine ⟨s.memoryInit buffer, booted, booted.hartInit, rfl, drive_busInit rfl, drive_hartInit rfl,
    fun _ => readReg_hartInit_of_ne_two booted, toNat_readReg_hartInit_two booted, rfl, rfl, rfl, rfl, rfl, fun k hk => ?_⟩
  have byte : booted.hartInit.readByte (s.cfg.base.toNat + k) =
      ((buffer.getD [])[k]?).getD (Config.memInit booted.hartInit.image k) := readByte_memoryInit s buffer hk
  rw [byte]
  exact ⟨fun b supplied => by rw [supplied]; rfl, fun unsupplied => by rw [unsupplied]; rfl⟩

/-- Settles O5: an `init` looks at its argument before it changes anything. -/
theorem initWithoutArgumentFails : Obligations.InitWithoutArgumentFails := fun s =>
  ⟨rfl, rfl, fun dead => by simp [drive, dead], fun unbound => by simp [drive, unbound]⟩

/-! ## Power-down -/

/-- Settles O6: the invariant gives a ready hart its Bus and the Bus its memory, so each `deinit` in the order answers `ok`, and
out of it finds the block above it still there. -/
theorem teardownInReverseOrder : Obligations.TeardownInReverseOrder := by
  intro s inv ready
  have bound : s.busBound = true := inv.readyBound ready
  have live : s.memLive = true := inv.boundLive bound
  let stopped : State := { s with ready := false }
  let unbound : State := { stopped with busBound := false }
  refine ⟨stopped, unbound, { unbound with memLive := false, mem := [] }, ⟨?_, rfl, fun _ => rfl, fun w => ⟨_, rfl, rfl⟩⟩,
    ⟨?_, fun _ => rfl, fun _ _ => rfl, fun _ _ _ => rfl⟩, ⟨?_, rfl⟩, ⟨?_, ?_, ?_⟩, rfl, rfl, rfl⟩
  all_goals simp [drive, stopped, unbound, ready, bound, live]

end Sys2Proof.Proofs.Boot
end

section
/-! SUPPORT. Proofs about what the instructions compute (41_op_imm.md, 43_op.md) and what all of them leave unchanged. -/

namespace Sys2Proof.Proofs.Alu
open Sys2Proof.Machine

/-! ## The frame -/

/-- Settles O19: whatever the instruction, it completes, and completing writes `rd` only. -/
theorem everyInstructionWritesOnlyRd : Obligations.EveryInstructionWritesOnlyRd := by
  intro i s
  obtain ⟨v, done⟩ := exec_complete i s
  exact ⟨_, done, complete_frame i.rd v s⟩

/-! ## Comparisons -/

theorem boolWord_slt (x y : Word) : boolWord (x.slt y) = if x.toInt < y.toInt then 1 else 0 := by
  simp [boolWord, BitVec.slt]

theorem boolWord_ult (x y : Word) : boolWord (x.ult y) = if x.toNat < y.toNat then 1 else 0 := by
  simp [boolWord, BitVec.ult]

/-- Settles O8: the immediate is compared as the signed number it stands for, or as that number's residue modulo 2^64. -/
theorem sltiSltiuCompare : Obligations.SltiSltiuCompare := by
  refine fun s rd rs1 imm => ⟨.of_complete rfl ?_, .of_complete rfl ?_⟩
  · rw [boolWord_slt, OpImm.toInt_sextImm]
  · rw [boolWord_ult, ← OpImm.toNat_sextImm]
    simp only [Int.ofNat_lt]

/-- Settles O13: the two comparisons on the values of both registers. -/
theorem sltSltuCompare : Obligations.SltSltuCompare :=
  fun _ _ _ _ => ⟨.of_complete rfl (boolWord_slt _ _), .of_complete rfl (boolWord_ult _ _)⟩

/-! ## Bitwise operations -/

/-- Bit 11 of the immediate stands for every bit above it. -/
theorem getLsbD_sextImm (imm : BitVec 12) {k : Nat} (h : k < 64) : (sextImm imm).getLsbD k = imm.getLsbD (min k 11) := by
  by_cases low : k < 11
  · rw [sextImm, BitVec.getLsbD_signExtend, decide_eq_true h, Bool.true_and, if_pos (by omega), show min k 11 = k by omega]
  · rw [sextImm, WordFields.getLsbD_signExtend_of_top_le imm h (by omega), BitVec.msb_eq_getLsbD_last,
      show min k 11 = 11 by omega]

/-- Settles O9: the operations work bit by bit, and the immediate's bits are known. -/
theorem immediateLogicBitwise : Obligations.ImmediateLogicBitwise := by
  refine fun s rd rs1 imm => ⟨.of_complete rfl fun k hk => ?_, .of_complete rfl fun k hk => ?_, .of_complete rfl fun k hk => ?_⟩
  · rw [BitVec.getLsbD_xor, getLsbD_sextImm imm hk]
  · rw [BitVec.getLsbD_or, getLsbD_sextImm imm hk]
  · rw [BitVec.getLsbD_and, getLsbD_sextImm imm hk]

/-- Settles O14: the library's bits of the three operations. -/
theorem registerLogicBitwise : Obligations.RegisterLogicBitwise :=
  fun _ _ _ _ => ⟨.of_complete rfl fun _ _ => BitVec.getLsbD_xor, .of_complete rfl fun _ _ => BitVec.getLsbD_or,
    .of_complete rfl fun _ _ => BitVec.getLsbD_and⟩

/-! ## Shifts -/

theorem toNat_shiftLeft (x : Word) (n : Nat) : (x <<< n).toNat = x.toNat * 2 ^ n % 2 ^ 64 := by
  rw [BitVec.toNat_shiftLeft, Nat.shiftLeft_eq]

theorem toNat_ushiftRight (x : Word) (n : Nat) : (x >>> n).toNat = x.toNat / 2 ^ n := by
  rw [BitVec.toNat_ushiftRight, Nat.shiftRight_eq_div_pow]

/-- An arithmetic right shift is the floor of the quotient. -/
theorem toInt_sshiftRight (x : Word) (n : Nat) : (x.sshiftRight n).toInt = x.toInt / 2 ^ n := by
  rw [BitVec.toInt_sshiftRight, Int.shiftRight_eq_div_pow, Nat.cast_pow, Nat.cast_ofNat]

theorem shamt6_eq_mod (v : Word) : shamt6 v = v.toNat % 64 :=
  BitVec.extractLsb'_toNat 0 6 v

/-- Settles O10: the laws of the three shifts hold of every amount. -/
theorem immediateShifts : Obligations.ImmediateShifts :=
  fun _ _ _ sh _ => ⟨.of_complete rfl (toNat_shiftLeft _ sh), .of_complete rfl (toNat_ushiftRight _ sh),
    .of_complete rfl (toInt_sshiftRight _ sh)⟩

/-- Settles O15: the same laws, the amount being the register's low six bits. -/
theorem registerShiftsMaskAmount : Obligations.RegisterShiftsMaskAmount := by
  intro s rd rs1 rs2
  rw [← shamt6_eq_mod]
  exact ⟨.of_complete rfl (toNat_shiftLeft _ _), .of_complete rfl (toNat_ushiftRight _ _),
    .of_complete rfl (toInt_sshiftRight _ _)⟩

/-! ## Subtraction -/

/-- A borrow wraps (D6). -/
theorem toNat_sub_eq_emod (x y : Word) : ((x - y).toNat : Int) = ((x.toNat : Int) - y.toNat) % 2 ^ 64 := by
  have := x.isLt
  have := y.isLt
  rw [BitVec.toNat_sub]
  omega

/-- Settles O12: the value written is the difference of words. -/
theorem subSubtractsRegisters : Obligations.SubSubtractsRegisters :=
  fun _ _ _ _ => .of_complete rfl (toNat_sub_eq_emod _ _)

/-! ## The upper halves of the sources of a word-width instruction -/

theorem lowWord_eq_of_mod_eq {x y : Word} (h : x.toNat % 2 ^ 32 = y.toNat % 2 ^ 32) : lowWord x = lowWord y := by
  apply BitVec.eq_of_toNat_eq
  rw [WordWidth.toNat_lowWord, WordWidth.toNat_lowWord, h]

theorem shamt5_eq_of_mod_eq {x y : Word} (h : x.toNat % 2 ^ 32 = y.toNat % 2 ^ 32) : shamt5 x = shamt5 y := by
  rw [WordWidth.shamt5_eq_mod, WordWidth.shamt5_eq_mod]
  omega

/-- What an instruction of opcode 0x1b or 0x3b computes is the sign extension of a word, the same word wherever the registers have
the same low halves. -/
theorem exec_complete_sextWord {i : Instr} (wordWidth : i.mnemonic.enc.opcode = 0x1b#7 ∨ i.mnemonic.enc.opcode = 0x3b#7)
    {s s' : State} (low : ∀ r, (s.readReg r).toNat % 2 ^ 32 = (s'.readReg r).toNat % 2 ^ 32) :
    ∃ r, exec i s = complete i.rd (sextWord r) s ∧ exec i s' = complete i.rd (sextWord r) s' := by
  have lowWords (r : Reg) : lowWord (s'.readReg r) = lowWord (s.readReg r) := lowWord_eq_of_mod_eq (low r).symm
  have amounts (r : Reg) : shamt5 (s'.readReg r) = shamt5 (s.readReg r) := shamt5_eq_of_mod_eq (low r).symm
  cases i with
  | addiw | slliw | srliw | sraiw | addw | subw | sllw | srlw | sraw =>
    refine ⟨_, rfl, ?_⟩
    simp only [exec, execAddiw, execSlliw, execSrliw, execSraiw, execAddw, execSubw, execSllw, execSrlw, execSraw, lowWords,
      amounts, Instr.rd]
  | _ => simp [Instr.mnemonic, Mnemonic.enc, opImm, op] at wordWidth

theorem getLsbD_sextWord (r : Word32) {k : Nat} (hk : k < 64) (upper : 31 ≤ k) : (sextWord r).getLsbD k = r.msb :=
  WordFields.getLsbD_signExtend_of_top_le r hk upper

/-- Settles O17: both states get the same sign-extended word, all of whose bits from 31 up are its sign. -/
theorem wordOpsIgnoreUpperHalves : Obligations.WordOpsIgnoreUpperHalves := by
  intro i s s' wordWidth low
  obtain ⟨r, done, done'⟩ := exec_complete_sextWord wordWidth low
  refine ⟨_, _, done, done', fun nonzero => ?_, fun k hk hk' nonzero => ?_⟩
  · simp only [readReg_setStatus, readReg_writeReg_same _ _ _ nonzero]
  · simp only [readReg_setStatus, readReg_writeReg_same _ _ _ nonzero]
    rw [getLsbD_sextWord r hk' (by omega), getLsbD_sextWord r (by decide) (le_refl 31)]

end Sys2Proof.Proofs.Alu
end

section
/-! SUPPORT. Proofs about the values of the B and J immediates (30_encoding.md R98, R100). -/

namespace Sys2Proof.Proofs.BranchImmediates

theorem toInt_bit (b : BitVec 1) : b.toInt = -(b.toNat : Int) := by
  revert b; decide

/-- Bits joined below a signed number: the number moves up by their width. -/
theorem toInt_append_of_pos {n m : Nat} (h : 0 < n) (x : BitVec n) (y : BitVec m) :
    (x ++ y).toInt = 2 ^ m * x.toInt + y.toNat := by
  rw [BitVec.toInt_append, if_neg (by simpa using h.ne')]

/-- A field's number, as the statement writes it. -/
theorem toNat_field (w : Word32) (k n : Nat) : (w.extractLsb' k n).toNat = w.toNat / 2 ^ k % 2 ^ n := by
  rw [BitVec.extractLsb'_toNat, Nat.shiftRight_eq_div_pow]

theorem toInt_immB (w : Word32) : (immB w).toInt =
    -(2 ^ 12 * ((w.toNat / 2 ^ 31 % 2 ^ 1 : Nat) : Int)) + 2 ^ 11 * ((w.toNat / 2 ^ 7 % 2 ^ 1 : Nat) : Int) +
      2 ^ 5 * ((w.toNat / 2 ^ 25 % 2 ^ 6 : Nat) : Int) + 2 * ((w.toNat / 2 ^ 8 % 2 ^ 4 : Nat) : Int) := by
  rw [immB, BitVec.toInt_signExtend_of_le (by decide)]
  iterate 4 rw [toInt_append_of_pos (by decide)]
  rw [toInt_bit]
  simp only [toNat_field, BitVec.toNat_ofNat]
  ring

theorem toInt_immJ (w : Word32) : (immJ w).toInt =
    -(2 ^ 20 * ((w.toNat / 2 ^ 31 % 2 ^ 1 : Nat) : Int)) + 2 ^ 12 * ((w.toNat / 2 ^ 12 % 2 ^ 8 : Nat) : Int) +
      2 ^ 11 * ((w.toNat / 2 ^ 20 % 2 ^ 1 : Nat) : Int) + 2 * ((w.toNat / 2 ^ 21 % 2 ^ 10 : Nat) : Int) := by
  rw [immJ, BitVec.toInt_signExtend_of_le (by decide)]
  iterate 4 rw [toInt_append_of_pos (by decide)]
  rw [toInt_bit]
  simp only [toNat_field, BitVec.toNat_ofNat]
  ring

/-- Settles O26: each joined group moves the ones before it up, and the ranges follow from those of the groups. -/
theorem immediateBJValues : Obligations.ImmediateBJValues := by
  intro w
  rw [toInt_immB, toInt_immJ]
  omega

end Sys2Proof.Proofs.BranchImmediates
end

section
/-! SUPPORT. Proofs about loads after stores, and about accesses outside the window (20_memory.md, 60_exceptions.md section 1). -/

namespace Sys2Proof.Proofs.Access
open Sys2Proof.Machine

/-! ## Reading back what was stored -/

/-- The little-endian bytes of a number give back the number modulo their width. -/
theorem readLE_of_bytes {s : State} {a v n : Nat} (h : ∀ j < n, s.readByte (a + j) = BitVec.ofNat 8 (v / 256 ^ j)) :
    s.readLE a n = v % 256 ^ n := by
  induction n generalizing a v with
  | zero => rw [State.readLE, pow_zero, Nat.mod_one]
  | succ n ih =>
    have first : s.readByte a = BitVec.ofNat 8 v := by simpa using h 0 (by omega)
    have others : s.readLE (a + 1) n = v / 256 % 256 ^ n := ih fun j hj => by
      rw [Nat.div_div_eq_div_mul, ← pow_succ', show a + 1 + j = a + (j + 1) by omega]
      exact h (j + 1) (by omega)
    rw [State.readLE, first, others, BitVec.toNat_ofNat, show 2 ^ 8 = 256 from rfl, pow_succ' 256 n, Nat.mod_mul]

theorem readLE_putLE (s : State) (a v n : Nat) :
    ({ s with mem := Memory.putLE s.mem a v n } : State).readLE a n = v % 256 ^ n :=
  readLE_of_bytes fun j hj => MemoryAccess.readByte_of_lookup_eq_some (lookup_putLE_inside s.mem a v n j hj)

/-- Settles O36: the bytes stored are the ones read, and they fit in the 64 bits a load returns. -/
theorem loadAfterStore : Obligations.LoadAfterStore := by
  intro s addr v n valid
  let t : State := { s with mem := Memory.putLE s.mem addr.toNat v.toNat n }
  refine ⟨t, memWrite_valid v valid, _, memRead_valid (s := t) valid, ?_⟩
  rw [MemoryAccess.toNat_ofNat_readLE _ (MemoryAccess.width_le_eight valid), readLE_putLE, pow_mul, show 2 ^ 8 = 256 from rfl]

/-- Settles O40: the store leaves `pc` and the window, so the Fetch is the load that reads the value back. -/
theorem fetchSeesStore : Obligations.FetchSeesStore := by
  intro s v ready running valid
  let t : State := { s with mem := Memory.putLE s.mem s.pc.toNat v.toNat 4 }
  have word : t.wordAt s.pc.toNat = v.setWidth 32 := by
    apply BitVec.eq_of_toNat_eq
    rw [← FetchExecute.readLE_four, readLE_putLE, BitVec.toNat_setWidth, show 256 ^ 4 = 2 ^ 32 from rfl]
  refine ⟨t, memWrite_valid v valid, ?_⟩
  rw [← word]
  exact FetchExecute.fetch_valid (s := t) ready running valid

/-! ## Accesses outside the window -/

/-- A width in bits is one of the four exactly if its number of bytes is one of theirs. -/
theorem validAccess_bytesOfWidth (c : Config) (addr : Word) (width : Nat) :
    ValidAccess c addr (bytesOfWidth width) ↔ width ∈ [8, 16, 32, 64] ∧ c.base.toNat ≤ addr.toNat ∧
      addr.toNat + width / 8 ≤ c.base.toNat + c.capacity := by
  by_cases listed : width = 8 ∨ width = 16 ∨ width = 32 ∨ width = 64
  · rcases listed with rfl | rfl | rfl | rfl <;> simp [ValidAccess, bytesOfWidth]
  · simp [ValidAccess, bytesOfWidth, listed]

theorem drive_load_valid {s : State} {addr : Word} {width : Nat} (bound : s.busBound = true)
    (valid : ValidAccess s.cfg addr (bytesOfWidth width)) : ∃ v, drive (.load addr width) s = .next (.value v, s) := by
  simp [drive, bound, memRead_valid valid]

theorem drive_load_invalid {s : State} {addr : Word} {width : Nat} (bound : s.busBound = true)
    (invalid : ¬ ValidAccess s.cfg addr (bytesOfWidth width)) :
    drive (.load addr width) s = .next (.value sentinel, s.setFault) := by
  simp [drive, bound, memRead_invalid invalid]

theorem drive_store_valid {s : State} {addr : Word} {width : Nat} (v : Word) (bound : s.busBound = true)
    (valid : ValidAccess s.cfg addr (bytesOfWidth width)) :
    ∃ t, drive (.store addr width v) s = .next (.ok, t) ∧ t.fault = s.fault := by
  simp [drive, bound, memWrite_valid v valid]

theorem drive_store_invalid {s : State} {addr : Word} {width : Nat} (v : Word) (bound : s.busBound = true)
    (invalid : ¬ ValidAccess s.cfg addr (bytesOfWidth width)) : drive (.store addr width v) s = .next (.error, s) := by
  simp [drive, bound, memWrite_invalid v invalid]

theorem fetch_invalid {s : State} (ready : s.ready = true) (running : s.halted = false) (invalid : ¬ ValidAccess s.cfg s.pc 4) :
    fetch s = .next (sentinelWord, s.setFault) := by
  simp [fetch, ready, running, memRead_invalid invalid, sentinelWord]

/-- Settles O37: both kinds of load are told apart by the validity of their access, and a Fetch is a load of four bytes. -/
theorem loadFaultsOutsideWindow : Obligations.LoadFaultsOutsideWindow := by
  intro s addr width bound
  rw [← validAccess_bytesOfWidth]
  refine ⟨drive_load_invalid bound, drive_load_valid bound, fun ready running outside => ?_, fun i => ?_⟩
  · exact fetch_invalid ready running fun ⟨_, inside⟩ => outside inside
  · obtain ⟨t, done, frame⟩ := Alu.everyInstructionWritesOnlyRd i s
    exact ⟨t, done, frame.fault⟩

/-- Settles O38: both kinds of store are told apart by the validity of their access. -/
theorem storeErrorsOutsideWindow : Obligations.StoreErrorsOutsideWindow := by
  intro s addr v width bound
  rw [← validAccess_bytesOfWidth]
  refine ⟨drive_store_invalid v bound, drive_store_valid v bound, fun i => ?_⟩
  obtain ⟨t, done, frame⟩ := Alu.everyInstructionWritesOnlyRd i s
  exact ⟨t, done, frame.bytes⟩

end Sys2Proof.Proofs.Access
end

section
/-! SUPPORT. Proofs about one Execute and one step (40_fetch_decode_dispatch.md sections 3 and 4, 60_exceptions.md section 1): what
they depend on, and the two ways a step on a running hart can go. -/

namespace Sys2Proof.Proofs.OneStep
open Sys2Proof.Machine

/-! ## A hart that is not ready -/

theorem fetch_of_not_ready {s : State} (h : s.ready = false) : fetch s = .next (sentinelWord, s.setFault) :=
  if_pos h

theorem execute_of_not_ready {s : State} (w : Word32) (h : s.ready = false) : execute w s = .next (s.setStatus .invalidHandle) :=
  if_pos h

/-- Settles O41: both look at `ready` first. -/
theorem notReadyHart : Obligations.NotReadyHart :=
  fun _ w h => ⟨fetch_of_not_ready h, execute_of_not_ready w h⟩

/-! ## What an Execute depends on -/

/-- Settles O21: each way an Execute can go is chosen by the flags and the word, and what it then leaves in registers, status and
`halted` is made from them, the registers and the mode. -/
theorem executeDependsOnWordAndRegisters : Obligations.ExecuteDependsOnWordAndRegisters := by
  intro w s s' t regs ready halted mode h
  rcases execute_cases w s with ⟨r, e⟩ | ⟨-, -, e⟩ | ⟨r, k, i, v, decoded, e⟩ | ⟨r, k, ⟨c, decoded⟩, e⟩
  · cases e.symm.trans h
    exact ⟨_, execute_of_not_ready w (ready.trans r), regs, rfl, halted⟩
  · cases e.symm.trans h
  · obtain ⟨t', done, frame, regs'⟩ :=
      FetchExecute.exec_next_of_readReg_eq regs ((FetchExecute.execute_of_decodeWord decoded r k).symm.trans h)
    cases e.symm.trans h
    refine ⟨t', ?_, regs', frame.status, ?_⟩
    · rw [FetchExecute.execute_of_decodeWord decoded (ready.trans r) (halted.trans k), done]
    · simpa using frame.halted.trans halted
  · cases e.symm.trans h
    refine ⟨s'.raiseIllegal w, Unimplemented.execute_of_unimplemented decoded (ready.trans r) (halted.trans k), ?_, ?_, ?_⟩
    · simpa using regs
    · simp
    · rw [raiseIllegal_halted, raiseIllegal_halted, halted, mode]

/-! ## The fault flag -/

/-- The same state with the fault flag set or cleared. -/
def withFault (s : State) (f : Bool) : State := { s with fault := f }

theorem withFault_writeReg (s : State) (f : Bool) (r : Reg) (v : Word) :
    withFault (s.writeReg r v) f = (withFault s f).writeReg r v := by
  unfold State.writeReg; split <;> rfl

theorem withFault_raiseIllegal (s : State) (f : Bool) (w : Word32) :
    withFault (s.raiseIllegal w) f = (withFault s f).raiseIllegal w := by
  cases mode : s.cfg.illegalMode <;> simp [State.raiseIllegal, withFault, mode, State.setStatus, State.setHalted]

theorem withFault_afterExecute (s : State) (f : Bool) : withFault s.afterExecute f = (withFault s f).afterExecute := by
  have same : (withFault s f).goesOn = s.goesOn := rfl
  unfold State.afterExecute; rw [same]; split <;> rfl

theorem execute_withFault {w : Word32} {s t : State} (f : Bool) (h : execute w s = .next t) :
    execute w (withFault s f) = .next (withFault t f) := by
  rcases execute_cases w s with ⟨r, e⟩ | ⟨-, -, e⟩ | ⟨r, k, i, v, decoded, e⟩ | ⟨r, k, ⟨c, decoded⟩, e⟩ <;>
    cases e.symm.trans h
  · exact execute_of_not_ready w (s := withFault s f) r
  · obtain ⟨v', done, done'⟩ := FetchExecute.exec_complete_of_readReg_eq i (s := s) (u := withFault s f) fun _ => rfl
    rw [FetchExecute.execute_of_decodeWord decoded r k, done] at e
    rw [FetchExecute.execute_of_decodeWord decoded (s := withFault s f) r k, done', complete, ← withFault_writeReg,
      ← Host.Outcome.next.inj e]
    rfl
  · rw [withFault_raiseIllegal]
    exact Unimplemented.execute_of_unimplemented decoded (s := withFault s f) r k

/-- A Fetch gives the same word whatever the flag, and the same state but for the flag. -/
theorem fetch_withFault {x : Word32} {s t : State} (f : Bool) (h : fetch s = .next (x, t)) :
    ∃ f', fetch (withFault s f) = .next (x, withFault t f') := by
  rcases fetch_cases s with ⟨r, e⟩ | ⟨-, -, e⟩ | ⟨r, k, valid, -⟩ | ⟨r, k, invalid, e⟩
  · cases e.symm.trans h
    exact ⟨true, fetch_of_not_ready (s := withFault s f) r⟩
  · cases e.symm.trans h
  · cases (FetchExecute.fetch_valid r k valid).symm.trans h
    exact ⟨f, FetchExecute.fetch_valid (s := withFault s f) r k valid⟩
  · cases e.symm.trans h
    exact ⟨true, Access.fetch_invalid (s := withFault s f) r k invalid⟩

theorem step_of_fetch_execute {s u v : State} {w : Word32} (fetched : fetch s = .next (w, u)) (executed : execute w u = .next v) :
    step s = .next v.afterExecute := by
  simp only [step, fetchLoopRound, fetched, executed]

/-- Settles O22: `withFault` commutes with everything an Execute and the driver's increment do, and with a Fetch up to the flag. -/
theorem faultFlagIsInert : Obligations.FaultFlagIsInert := by
  refine fun w s f => ⟨fun t => execute_withFault f, fun x t h => ?_, fun t h => ?_⟩
  · obtain ⟨f', fetched⟩ := fetch_withFault f h
    exact ⟨_, fetched, rfl⟩
  · obtain ⟨x, u, v, fetched, executed, rfl⟩ := step_next h
    obtain ⟨f', fetched'⟩ := fetch_withFault f fetched
    refine ⟨withFault v.afterExecute f', ?_, rfl⟩
    rw [withFault_afterExecute]
    exact step_of_fetch_execute fetched' (execute_withFault f' executed)

/-! ## The two ways of a step on a running hart -/

section
variable {s : State} (ready : s.ready = true) (running : s.halted = false)
include ready running

theorem step_of_instr {i : Instr} {t : State} (valid : ValidAccess s.cfg s.pc 4)
    (decoded : decodeWord (s.wordAt s.pc.toNat) = .instr i) (done : exec i s = .next t) : step s = .next t.advancePc := by
  obtain ⟨v, done'⟩ := exec_complete i s
  have executed : execute (s.wordAt s.pc.toNat) s = .next t := by
    rw [FetchExecute.execute_of_decodeWord decoded ready running, done]
  have ok : t.status = some .ok := by
    rw [← Host.Outcome.next.inj (done'.symm.trans done)]; rfl
  rw [step_of_fetch_execute (FetchExecute.fetch_valid ready running valid) executed, State.afterExecute, goesOn_ok ok, if_pos rfl]

theorem step_of_unimplemented {w : Word32} {c : IllegalCase} (valid : ValidAccess s.cfg s.pc 4)
    (word : s.wordAt s.pc.toNat = w) (decoded : decodeWord w = .unimplemented w c) :
    step s = .next (s.raiseIllegal w).afterExecute := by
  subst word
  exact step_of_fetch_execute (FetchExecute.fetch_valid ready running valid)
    (Unimplemented.execute_of_unimplemented decoded ready running)

/-- The sentinel a faulting Fetch gives is no instruction, so the same step raises (R131). -/
theorem step_of_invalid_pc (invalid : ¬ ValidAccess s.cfg s.pc 4) :
    step s = .next (s.setFault.raiseIllegal sentinelWord).afterExecute :=
  step_of_fetch_execute (Access.fetch_invalid ready running invalid)
    (Unimplemented.execute_of_unimplemented (Dispatch.decodeWord_of_other_opcode (by decide)) ready running)

end

/-- Settles O42: the bytes at `pc` are the word a Fetch gives. -/
theorem stepRunsDecodedInstruction : Obligations.StepRunsDecodedInstruction := by
  intro s i ready running valid _ bytes
  have decoded : decodeWord (s.wordAt s.pc.toNat) = .instr i := (DecodedBytes.decoded.inj bytes).1
  obtain ⟨t, done, frame⟩ := Alu.everyInstructionWritesOnlyRd i s
  refine ⟨t, done, ?_⟩
  rw [step_of_instr ready running valid decoded done, State.advancePc, frame.pc, frame.cfg]

/-- Settles O43: the raise changes `status` and `halted` only. -/
theorem raiseChangesNoRegister : Obligations.RaiseChangesNoRegister := fun w _ decoded s ready running =>
  ⟨s.raiseIllegal w, Unimplemented.execute_of_unimplemented decoded ready running, raiseIllegal_status s w,
    readReg_raiseIllegal s w, raiseIllegal_pc s w, raiseIllegal_fault s w, readByte_raiseIllegal s w, raiseIllegal_mem s w,
    raiseIllegal_cfg s w⟩

/-! ## The raise in either mode -/

theorem raiseIllegal_strict {s : State} (w : Word32) (mode : s.cfg.illegalMode = .strict) :
    s.raiseIllegal w = { s with halted := true, status := some (.illegalInstruction w) } := by
  rw [State.raiseIllegal, mode]; rfl

theorem raiseIllegal_recoverable {s : State} (w : Word32) (mode : s.cfg.illegalMode = .recoverable) :
    s.raiseIllegal w = { s with status := some (.illegalInstruction w) } := by
  rw [State.raiseIllegal, mode]; rfl

/-- The driver goes on from a raise on a running hart only where it so chooses and the mode is not strict. -/
theorem goesOn_raiseIllegal_eq_false {s : State} (w : Word32) (stops : s.cfg.goOn = false ∨ s.cfg.illegalMode = .strict) :
    (s.raiseIllegal w).goesOn = false := by
  rw [goesOn_raiseIllegal]
  rcases stops with h | h <;> simp [h]

theorem afterExecute_raiseIllegal {s : State} (w : Word32) (stops : s.cfg.goOn = false ∨ s.cfg.illegalMode = .strict) :
    (s.raiseIllegal w).afterExecute = s.raiseIllegal w := by
  rw [State.afterExecute, goesOn_raiseIllegal_eq_false w stops]
  rfl

section
variable {s : State} (ready : s.ready = true) (halted : s.halted = true)
include ready halted

theorem fetch_halted : fetch s = .fault .halted := by simp [fetch, ready, halted]

theorem execute_halted (w : Word32) : execute w s = .fault .halted := by simp [execute, ready, halted]

theorem step_halted : step s = .fault .halted := by simp only [step, fetchLoopRound, fetch_halted ready halted]

end

/-- Settles O44: the raise halts the hart, from which there is no going on. -/
theorem illegalHaltsInStrictMode : Obligations.IllegalHaltsInStrictMode := by
  intro s c ready running valid mode decoded
  let t := s.raiseIllegal (s.wordAt s.pc.toNat)
  have halted : t.halted = true := by simp [t, raiseIllegal_halted, mode]
  have ready' : t.ready = true := (raiseIllegal_ready ..).trans ready
  refine ⟨t, ?_, raiseIllegal_strict _ mode, ⟨_, raiseIllegal_status .., rfl⟩, fetch_halted ready' halted,
    execute_halted ready' halted, step_halted ready' halted⟩
  rw [step_of_unimplemented ready running valid rfl decoded, afterExecute_raiseIllegal _ (.inr mode)]

/-- Settles O45: the raise leaves its status alone, and the registers an implemented word then leaves are those it leaves before. -/
theorem illegalReportedInRecoverableMode : Obligations.IllegalReportedInRecoverableMode := by
  intro s c ready running valid mode decoded
  let t : State := { s with
    status := some (.illegalInstruction (s.wordAt s.pc.toNat))
    pc := if s.cfg.goOn then s.pc + BitVec.ofNat 64 s.cfg.pcStep else s.pc }
  refine ⟨t, ?_, rfl, fun w i decoded' => ?_⟩
  · rw [step_of_unimplemented ready running valid rfl decoded, State.afterExecute, goesOn_raiseIllegal, running, mode,
      raiseIllegal_recoverable _ mode]
    cases goOn : s.cfg.goOn <;> simp [State.advancePc, t, goOn, running]
  · obtain ⟨v, done⟩ := exec_complete i s
    obtain ⟨u, done', frame, regs⟩ := FetchExecute.exec_next_of_readReg_eq (s := s) (u := t) (fun _ => rfl) done
    exact ⟨u, _, (FetchExecute.execute_of_decodeWord (s := t) decoded' ready running).trans done',
      (FetchExecute.execute_of_decodeWord decoded' ready running).trans done, regs, frame.status⟩

/-! ## When a step stops -/

/-- A ready hart that has halted: it has no step (U7). -/
def Stuck (s : State) : Prop := s.ready = true ∧ s.halted = true

theorem execute_of_not_stuck {s : State} (w : Word32) (h : ¬ Stuck s) : ∃ t, execute w s = .next t := by
  rcases execute_cases w s with ⟨-, e⟩ | ⟨ready, halted, -⟩ | ⟨-, -, _, _, -, e⟩ | ⟨-, -, -, e⟩
  · exact ⟨_, e⟩
  · exact absurd ⟨ready, halted⟩ h
  · exact ⟨_, e⟩
  · exact ⟨_, e⟩

theorem fetch_of_not_stuck {s : State} (h : ¬ Stuck s) : ∃ w t, fetch s = .next (w, t) := by
  rcases fetch_cases s with ⟨-, e⟩ | ⟨ready, halted, -⟩ | ⟨-, -, -, e⟩ | ⟨-, -, -, e⟩
  · exact ⟨_, _, e⟩
  · exact absurd ⟨ready, halted⟩ h
  · exact ⟨_, _, e⟩
  · exact ⟨_, _, e⟩

/-- A Fetch changes neither flag that can stop the Execute after it. -/
theorem step_of_not_stuck {s : State} (h : ¬ Stuck s) : ∃ t, step s = .next t := by
  obtain ⟨w, u, fetched⟩ := fetch_of_not_stuck h
  have alive : ¬ Stuck u := by rcases fetch_next fetched with rfl | rfl <;> exact h
  obtain ⟨v, executed⟩ := execute_of_not_stuck w alive
  exact ⟨_, step_of_fetch_execute fetched executed⟩

/-- Settles O46: a hart that is not stuck has a step, and a stuck one stops at its Fetch. -/
theorem stepStopsExactlyWhenHalted : Obligations.StepStopsExactlyWhenHalted := by
  intro s
  by_cases stuck : Stuck s
  · have stops : step s = .fault .halted := step_halted stuck.1 stuck.2
    exact ⟨by simp [stops], ⟨fun _ => stuck, fun _ => stops⟩, fun alive => absurd stuck alive⟩
  · obtain ⟨t, stepped⟩ := step_of_not_stuck stuck
    exact ⟨by simp [stepped], ⟨fun stops => by simp [stepped] at stops, fun h => absurd h stuck⟩, fun _ => ⟨t, stepped⟩⟩

/-- Settles O47: the step sets `fault` and raises on the sentinel; only the driver's going on may then move `pc`. -/
theorem faultingFetchIsIllegal : Obligations.FaultingFetchIsIllegal := by
  intro s ready running invalid
  refine ⟨_, step_of_invalid_pc ready running invalid, by simp, ?_, by decide, ?_, by simp, by simp, fun strict => ?_, by simp⟩
  · rw [afterExecute_status, raiseIllegal_status]
    rfl
  · rw [afterExecute_halted, raiseIllegal_halted, setFault_halted, running, setFault_cfg, Bool.false_or]
  · rw [afterExecute_raiseIllegal (s := s.setFault) _ (.inr strict), raiseIllegal_pc, setFault_pc]

end Sys2Proof.Proofs.OneStep
end

section
/-! SUPPORT. Proofs about fetch loops (40_fetch_decode_dispatch.md section 4, R142): one that stays at a word and one that walks
through the window. -/

namespace Sys2Proof.Proofs.FetchLoops
open Sys2Proof.Machine OneStep

/-! ## Steps one after another -/

theorem run_succ {s u : State} (stepped : step s = .next u) (k : Nat) :
    Host.Core.run core (k + 1) s = Host.Core.run core k u := by
  have : core.step s = .next u := stepped
  simp only [Host.Core.run, this]

/-- What holds at the start and is kept by a step, which it lets happen, holds after any number of steps. -/
theorem run_of_invariant {P : State → Prop} (keeps : ∀ s, P s → ∃ t, step s = .next t ∧ P t) (k : Nat) {s : State} (h : P s) :
    ∃ t : State, Host.Core.run core k s = .next t ∧ P t := by
  induction k generalizing s with
  | zero => exact ⟨s, rfl, h⟩
  | succ k ih =>
    obtain ⟨u, stepped, hu⟩ := keeps s h
    rw [run_succ stepped]
    exact ih hu

/-! ## What a run of implemented words leaves as it was -/

/-- Nothing but the registers and the status differs (of what a run looks at). -/
structure SameOutsideRegs (s t : State) : Prop where
  pc : t.pc = s.pc
  fault : t.fault = s.fault
  halted : t.halted = s.halted
  ready : t.ready = s.ready
  mem : t.mem = s.mem
  image : t.image = s.image
  cfg : t.cfg = s.cfg

namespace SameOutsideRegs
variable {s t u : State}

theorem refl (s : State) : SameOutsideRegs s s := by constructor <;> rfl

theorem trans (h : SameOutsideRegs s t) (h' : SameOutsideRegs t u) : SameOutsideRegs s u where
  pc := h'.pc.trans h.pc
  fault := h'.fault.trans h.fault
  halted := h'.halted.trans h.halted
  ready := h'.ready.trans h.ready
  mem := h'.mem.trans h.mem
  image := h'.image.trans h.image
  cfg := h'.cfg.trans h.cfg

theorem of_onlyWrites {rd : Reg} (h : OnlyWrites rd s t) : SameOutsideRegs s t where
  pc := h.pc
  fault := h.fault
  halted := h.halted
  ready := h.ready
  mem := h.mem
  image := h.image
  cfg := h.cfg

theorem wordAt (h : SameOutsideRegs s t) (a : Nat) : t.wordAt a = s.wordAt a := by
  simp only [State.wordAt, readByte_congr h.mem h.image h.cfg]

end SameOutsideRegs

/-! ## Fetch loops -/

/-- With PC_STEP = 0 a step on an implemented word at `pc` leaves the next one at the same word. -/
theorem step_of_pcStep_zero {s : State} {i : Instr} (still : s.cfg.pcStep = 0) (ready : s.ready = true) (running : s.halted = false)
    (valid : ValidAccess s.cfg s.pc 4) (decoded : decodeWord (s.wordAt s.pc.toNat) = .instr i) :
    ∃ t, step s = .next t ∧ SameOutsideRegs s t := by
  obtain ⟨t, done, frame⟩ := Alu.everyInstructionWritesOnlyRd i s
  refine ⟨_, step_of_instr ready running valid decoded done, ?_⟩
  have pc : t.advancePc.pc = s.pc := by simp [frame.pc, frame.cfg, still]
  exact { SameOutsideRegs.of_onlyWrites frame with pc := pc }

/-- Settles O54: the loop keeps everything but registers and status as at its start, so each step finds the same word. -/
theorem pcStepZeroRepeatsWord : Obligations.PcStepZeroRepeatsWord := by
  intro n s i still ready running valid decoded
  have fetches {t : State} (same : SameOutsideRegs s t) : fetch t = .next (s.wordAt s.pc.toNat, t) := by
    rw [← same.wordAt, ← same.pc]
    exact FetchExecute.fetch_valid (same.ready.trans ready) (same.halted.trans running) (by rwa [same.cfg, same.pc])
  have keeps : ∀ t, SameOutsideRegs s t → ∃ u, step t = .next u ∧ SameOutsideRegs s u := by
    intro t same
    obtain ⟨u, stepped, same'⟩ := step_of_pcStep_zero (s := t) (i := i) (by rw [same.cfg, still]) (same.ready.trans ready)
      (same.halted.trans running) (by rwa [same.cfg, same.pc]) (by rwa [same.wordAt, same.pc])
    exact ⟨u, stepped, same.trans same'⟩
  obtain ⟨t, done, same⟩ := run_of_invariant keeps n (SameOutsideRegs.refl s)
  exact ⟨t, done, same.pc, same.halted.trans running, same.fault, fetches same⟩

/-- The run comes to a raise within `n` steps, with memory as it was. -/
def RaisesWithin (n : Nat) (s : State) : Prop :=
  ∃ k, 1 ≤ k ∧ k ≤ n ∧ ∃ (t : State) (w : Word32), Host.Core.run core k s = .next t ∧
    t.status = some (.illegalInstruction w) ∧ (s.cfg.illegalMode = .strict → t.halted = true) ∧ t.mem = s.mem

theorem raisesWithin_of_step {s u : State} {w : Word32} (n : Nat) (stepped : step s = .next (u.raiseIllegal w).afterExecute)
    (cfg : u.cfg = s.cfg) (mem : u.mem = s.mem) : RaisesWithin (n + 1) s := by
  refine ⟨1, le_refl 1, by omega, _, w, run_succ stepped 0, by simp, fun strict => ?_, by simp [mem]⟩
  simp [raiseIllegal_halted, cfg, strict]

theorem raisesWithin_succ {s u : State} {n : Nat} (stepped : step s = .next u) (cfg : u.cfg = s.cfg) (mem : u.mem = s.mem)
    (h : RaisesWithin n u) : RaisesWithin (n + 1) s := by
  obtain ⟨k, _, _, t, w, done, status, halts, mem'⟩ := h
  exact ⟨k + 1, by omega, by omega, t, w, (run_succ stepped k).trans done, status, fun strict => halts (by rw [cfg, strict]),
    mem'.trans mem⟩

/-- `pc` stands `n` words before the end of the window. -/
def WordsBeforeEnd (n : Nat) (s : State) : Prop :=
  4 * n ≤ s.cfg.capacity ∧ s.pc = BitVec.ofNat 64 (s.cfg.base.toNat + s.cfg.capacity - 4 * n)

/-- Past the end of a window that is not the whole address space lies no word of it, not even where `pc` has wrapped to 0. -/
theorem invalid_at_end {s : State} (window : s.cfg.Valid) (proper : s.cfg.capacity ≠ 2 ^ 64) (h : WordsBeforeEnd 0 s) :
    ¬ ValidAccess s.cfg s.pc 4 := by
  obtain ⟨-, pc⟩ := h
  rintro ⟨-, low, high⟩
  rw [pc, BitVec.toNat_ofNat] at low high
  have : s.cfg.base.toNat + s.cfg.capacity ≤ 2 ^ 64 := window
  omega

theorem valid_before_end {s : State} {n : Nat} (window : s.cfg.Valid) (h : WordsBeforeEnd (n + 1) s) :
    ValidAccess s.cfg s.pc 4 := by
  obtain ⟨room, pc⟩ := h
  have : s.cfg.base.toNat + s.cfg.capacity ≤ 2 ^ 64 := window
  have number : s.pc.toNat = s.cfg.base.toNat + s.cfg.capacity - 4 * (n + 1) := by
    rw [pc, BitVec.toNat_ofNat, Nat.mod_eq_of_lt (by omega)]
  exact ⟨.inr (.inr (.inl rfl)), by omega, by omega⟩

theorem wordsBeforeEnd_advancePc {s : State} {n : Nat} (walks : s.cfg.pcStep = 4) (h : WordsBeforeEnd (n + 1) s) :
    WordsBeforeEnd n s.advancePc := by
  obtain ⟨room, pc⟩ := h
  refine ⟨by rw [advancePc_cfg]; omega, ?_⟩
  rw [advancePc_pc, advancePc_cfg, pc, walks, ← BitVec.ofNat_add]
  congr 1
  omega

/-- A walk by words, `n` of them left, raises on one of them or on the sentinel past the last. -/
theorem raisesWithin_of_wordsBeforeEnd (n : Nat) {s : State} (window : s.cfg.Valid) (walks : s.cfg.pcStep = 4)
    (proper : s.cfg.capacity ≠ 2 ^ 64) (ready : s.ready = true) (running : s.halted = false) (h : WordsBeforeEnd n s) :
    RaisesWithin (n + 1) s := by
  induction n generalizing s with
  | zero => exact raisesWithin_of_step 0 (step_of_invalid_pc ready running (invalid_at_end window proper h)) rfl rfl
  | succ n ih =>
    have valid := valid_before_end window h
    rcases Unimplemented.decodeWord_total (s.wordAt s.pc.toNat) with ⟨i, decoded⟩ | ⟨c, decoded⟩
    · obtain ⟨t, done, frame⟩ := Alu.everyInstructionWritesOnlyRd i s
      have position : WordsBeforeEnd (n + 1) t := by rwa [WordsBeforeEnd, frame.pc, frame.cfg]
      have cfg : t.advancePc.cfg = s.cfg := frame.cfg
      have rest : RaisesWithin (n + 1) t.advancePc :=
        ih (by rwa [cfg]) (by rwa [cfg]) (by rwa [cfg]) (frame.ready.trans ready) (frame.halted.trans running)
          (wordsBeforeEnd_advancePc (by rwa [frame.cfg]) position)
      exact raisesWithin_succ (step_of_instr ready running valid decoded done) cfg frame.mem rest
    · exact raisesWithin_of_step _ (step_of_unimplemented ready running valid rfl decoded) rfl rfl

/-- Settles O55: at BASE the whole window lies before the end. -/
theorem fetchLoopEndsInIllegal : Obligations.FetchLoopEndsInIllegal := by
  intro s window walks multiple pc ready running proper
  refine raisesWithin_of_wordsBeforeEnd _ window walks proper ready running ⟨by omega, ?_⟩
  rw [pc, show s.cfg.base.toNat + s.cfg.capacity - 4 * (s.cfg.capacity / 4) = s.cfg.base.toNat by omega, BitVec.ofNat_toNat,
    BitVec.setWidth_eq]

end Sys2Proof.Proofs.FetchLoops
end

section
/-! SUPPORT. Proofs about how runs end (70_reset_and_hazards.md section 4): word streams and fetch-loop runs. -/

namespace Sys2Proof.Proofs.RunEnds
open Sys2Proof.Machine OneStep FetchLoops

/-! ## Words that are all implemented -/

/-- The run goes through all its words; what it leaves differs in registers and status only, the status `OK` if there was a word. -/
theorem runWords_implemented {ws : List Word32} (implemented : ∀ w ∈ ws, ∃ i, decodeWord w = .instr i) (k : Nat) {s : State}
    (ready : s.ready = true) (running : s.halted = false) :
    ∃ u, runWords ws k s = .next ⟨.exhausted, [], u⟩ ∧ SameOutsideRegs s u ∧ (u.status = some .ok ∨ (ws = [] ∧ u = s)) := by
  induction ws generalizing k s with
  | nil => exact ⟨s, rfl, .refl s, .inr ⟨rfl, rfl⟩⟩
  | cons w ws ih =>
    obtain ⟨⟨i, decoded⟩, others⟩ := List.forall_mem_cons.mp implemented
    obtain ⟨t, done, frame⟩ := Alu.everyInstructionWritesOnlyRd i s
    have executed : execute w s = .next t := by rw [FetchExecute.execute_of_decodeWord decoded ready running, done]
    obtain ⟨u, rest, same, status⟩ := ih others (k + 1) (frame.ready.trans ready) (frame.halted.trans running)
    refine ⟨u, ?_, (SameOutsideRegs.of_onlyWrites frame).trans same, .inl ?_⟩
    · rw [runWords_cons executed, goOnOr_ok frame.status, rest]
    · rcases status with ok | ⟨-, rfl⟩
      · exact ok
      · exact frame.status

/-- Settles O56: an exhausted run that passed no status has ended well exactly if `fault` is clear. -/
theorem wordStreamCompletes : Obligations.WordStreamCompletes := by
  intro ws s nonempty ready running implemented
  obtain ⟨u, done, same, status⟩ := runWords_implemented implemented 0 ready running
  have ok : u.status = some .ok := status.resolve_right fun ⟨empty, _⟩ => nonempty empty
  refine ⟨_, done, rfl, rfl, ok, same.pc, same.mem, same.fault, same.halted.trans running, ?_⟩
  simp [RunResult.endedWell, same.fault]

/-! ## An unimplemented word among them -/

section
variable {s : State} {w : Word32} {c : IllegalCase} (ready : s.ready = true) (running : s.halted = false)
  (decoded : decodeWord w = .unimplemented w c)
include ready running decoded

theorem runWords_stops (stops : s.cfg.goOn = false ∨ s.cfg.illegalMode = .strict) (rest : List Word32) (k : Nat) :
    runWords (w :: rest) k s = .next ⟨.stoppedAtWord k (.illegalInstruction w), [], s.raiseIllegal w⟩ := by
  rw [runWords_cons (Unimplemented.execute_of_unimplemented decoded ready running),
    goOnOr_stop (raiseIllegal_status s w) (goesOn_raiseIllegal_eq_false w stops)]

theorem runWords_goes_on (goOn : s.cfg.goOn = true) (mode : s.cfg.illegalMode = .recoverable) (rest : List Word32) (k : Nat) :
    runWords (w :: rest) k s =
      mapNext (RunResult.pass k (.illegalInstruction w)) (runWords rest (k + 1) (s.raiseIllegal w)) := by
  have goesOn : (s.raiseIllegal w).goesOn = true := by simp [goesOn_raiseIllegal, goOn, running, mode]
  rw [runWords_cons (Unimplemented.execute_of_unimplemented decoded ready running),
    goOnOr_pass (raiseIllegal_status s w) (by simp) goesOn]

end

/-- Settles O57: the run reaches the word in the state after those before it, and a case (b) is never an end that is well. -/
theorem wordStreamStopsAtIllegal : Obligations.WordStreamStopsAtIllegal := by
  intro ws rest w c s ready running implemented decoded stops
  obtain ⟨u, done, same, -⟩ := runWords_implemented implemented 0 ready running
  have stopped : runWords (ws ++ w :: rest) 0 s =
      .next ⟨.stoppedAtWord ws.length (.illegalInstruction w), [], u.raiseIllegal w⟩ := by
    rw [runWords_append ws _ 0 s u done, Nat.zero_add]
    exact runWords_stops (same.ready.trans ready) (same.halted.trans running) decoded (by rwa [same.cfg]) rest ws.length
  exact ⟨u, _, done, stopped, rfl, rfl, fun p => by simp [RunResult.endedWell]⟩

/-- An Execute after which the driver goes on leaves a hart that has a next Execute. -/
theorem execute_goesOn_not_stuck {w : Word32} {s t : State} (h : execute w s = .next t) (goesOn : t.goesOn = true) :
    ¬ Stuck t := by
  rintro ⟨ready, halted⟩
  rcases execute_cases w s with ⟨r, e⟩ | ⟨-, -, e⟩ | ⟨-, running, i, v, -, e⟩ | ⟨-, -, -, e⟩ <;> cases e.symm.trans h
  · simp [r] at ready
  · simp [running] at halted
  · simp [State.goesOn, State.succeeded, halted] at goesOn

/-- From a hart that is not stuck every word stream comes to an end. -/
theorem runWords_ends (ws : List Word32) (k : Nat) {s : State} (alive : ¬ Stuck s) : ∃ r, runWords ws k s = .next r := by
  induction ws generalizing k s with
  | nil => exact ⟨_, rfl⟩
  | cons w ws ih =>
    obtain ⟨t, executed⟩ := execute_of_not_stuck w alive
    obtain ⟨q, status⟩ := execute_status executed
    rw [runWords_cons executed]
    rcases goOnOr_cases status k .stoppedAtWord (runWords ws (k + 1) t) with ⟨-, goesOn, e⟩ | ⟨-, goesOn, e⟩ | ⟨-, -, e⟩ <;>
      rw [e]
    · exact ih (k + 1) (execute_goesOn_not_stuck executed goesOn)
    · obtain ⟨r, rest⟩ := ih (k + 1) (execute_goesOn_not_stuck executed goesOn)
      exact ⟨r.pass k q, by rw [rest, mapNext_next]⟩
    · exact ⟨_, rfl⟩

/-- Settles O58: the run passes the word, whose raise in recoverable mode leaves its status alone, and then is the run of the
rest. -/
theorem wordStreamGoesOn : Obligations.WordStreamGoesOn := by
  intro ws rest w c s ready running implemented decoded goOn mode
  obtain ⟨u, done, same, -⟩ := runWords_implemented implemented 0 ready running
  have ready' := same.ready.trans ready
  have running' := same.halted.trans running
  have mode' : u.cfg.illegalMode = .recoverable := by rw [same.cfg, mode]
  have alive : ¬ Stuck (u.raiseIllegal w) := fun stuck => by simpa [raiseIllegal_halted, running', mode'] using stuck.2
  obtain ⟨r, further⟩ := runWords_ends rest (ws.length + 1) alive
  refine ⟨u, r, r.pass ws.length (.illegalInstruction w), done, ?_, ?_, rfl, rfl, rfl, by simp, fun p expected => ?_⟩
  · rw [← raiseIllegal_recoverable w mode', further]
  · rw [runWords_append ws _ 0 s u done, Nat.zero_add, runWords_goes_on ready' running' decoded (by rw [same.cfg, goOn]) mode',
      further, mapNext_next]
  · simp [expected]

/-! ## Fetch-loop runs -/

theorem step_goesOn_not_stuck {s t : State} (h : step s = .next t) (goesOn : t.goesOn = true) : ¬ Stuck t := by
  obtain ⟨w, u, v, -, executed, rfl⟩ := step_next h
  have alive := execute_goesOn_not_stuck executed (by simpa using goesOn)
  simpa [Stuck] using alive

/-- Round `j` from `s`, one of the first `k`, left the status `q` other than `OK`. -/
def LeavesStatus (s : State) (k j : Nat) (q : Status) : Prop :=
  j < k ∧ q ≠ .ok ∧ ∃ t, Host.Core.run core (j + 1) s = .next t ∧ t.status = some q

theorem leavesStatus_zero_iff {s t : State} (stepped : step s = .next t) {k : Nat} {q : Status} :
    LeavesStatus s (k + 1) 0 q ↔ q ≠ .ok ∧ t.status = some q := by
  have first : Host.Core.run core (0 + 1) s = .next t := run_succ stepped 0
  constructor
  · rintro ⟨-, bad, u, done, status⟩
    cases first.symm.trans done
    exact ⟨bad, status⟩
  · rintro ⟨bad, status⟩
    exact ⟨Nat.succ_pos k, bad, t, first, status⟩

theorem leavesStatus_succ_iff {s t : State} (stepped : step s = .next t) {k j : Nat} {q : Status} :
    LeavesStatus s (k + 1) (j + 1) q ↔ LeavesStatus t k j q := by
  simp [LeavesStatus, run_succ stepped]

/-- How a run of `n` rounds numbered from `i` ended, of which `k` were gone on from: cases (d) and (c) of R270. -/
def EndsAfter (n i k : Nat) (s : State) (r : RunResult) : Prop :=
  (k = n ∧ r.ending = .stepCount ∧ Host.Core.run core n s = .next r.final) ∨
  (k < n ∧ ∃ q, r.ending = .stoppedAtRound (i + k) q ∧ q ≠ .ok ∧ r.final.status = some q ∧
    Host.Core.run core (k + 1) s = .next r.final)

theorem endsAfter_succ {n i k : Nat} {s t : State} {r r' : RunResult} (stepped : step s = .next t) (h : EndsAfter n (i + 1) k t r)
    (ending : r'.ending = r.ending) (final : r'.final = r.final) : EndsAfter (n + 1) i (k + 1) s r' := by
  rw [EndsAfter, ending, final, run_succ stepped, run_succ stepped]
  rcases h with ⟨rfl, stepCount, done⟩ | ⟨before, q, stopped, bad, status, done⟩
  · exact .inl ⟨rfl, stepCount, done⟩
  · exact .inr ⟨by omega, q, by rw [stopped]; congr 1; omega, bad, status, done⟩

/-- What the run lists as passed, its rounds numbered from `i`. -/
def ListsPassed (i k : Nat) (s : State) (passed : List (Nat × Status)) : Prop :=
  ∀ m q, (m, q) ∈ passed ↔ ∃ j, m = i + j ∧ LeavesStatus s k j q

theorem listsPassed_zero (i : Nat) (s : State) : ListsPassed i 0 s [] := by
  simp [ListsPassed, LeavesStatus]

/-- One more round in front: its status is listed if it is not `OK`. -/
theorem exists_leavesStatus_succ_iff {s t : State} (stepped : step s = .next t) {i k m : Nat} {q : Status} :
    (∃ j, m = i + j ∧ LeavesStatus s (k + 1) j q) ↔
      (m = i ∧ q ≠ .ok ∧ t.status = some q) ∨ ∃ j, m = i + 1 + j ∧ LeavesStatus t k j q := by
  constructor
  · rintro ⟨j, rfl, h⟩
    cases j with
    | zero => exact .inl ⟨rfl, (leavesStatus_zero_iff stepped).mp h⟩
    | succ j => exact .inr ⟨j, by omega, (leavesStatus_succ_iff stepped).mp h⟩
  · rintro (⟨rfl, h⟩ | ⟨j, rfl, h⟩)
    · exact ⟨0, rfl, (leavesStatus_zero_iff stepped).mpr h⟩
    · exact ⟨j + 1, by omega, (leavesStatus_succ_iff stepped).mpr h⟩

theorem runRounds_ends (n i : Nat) {s : State} (alive : ¬ Stuck s) :
    ∃ r, runRounds n i s = .next r ∧ ∃ k ≤ n, EndsAfter n i k s r ∧ ListsPassed i k s r.passed := by
  induction n generalizing i s with
  | zero => exact ⟨_, rfl, 0, le_refl 0, .inl ⟨rfl, rfl, rfl⟩, listsPassed_zero i s⟩
  | succ n ih =>
    obtain ⟨t, stepped⟩ := step_of_not_stuck alive
    obtain ⟨q, status⟩ := step_status stepped
    rw [runRounds_succ stepped]
    rcases goOnOr_cases status i .stoppedAtRound (runRounds n (i + 1) t) with ⟨rfl, goesOn, e⟩ | ⟨bad, goesOn, e⟩ | ⟨bad, -, e⟩ <;>
      rw [e]
    case inl =>
      obtain ⟨r, rest, k, _, ends, lists⟩ := ih (i + 1) (step_goesOn_not_stuck stepped goesOn)
      refine ⟨r, rest, k + 1, by omega, endsAfter_succ stepped ends rfl rfl, fun m q' => ?_⟩
      rw [lists m q', exists_leavesStatus_succ_iff stepped, status]
      have silent : ¬ (m = i ∧ q' ≠ .ok ∧ some Status.ok = some q') := fun ⟨_, bad, same⟩ => bad (Option.some.inj same).symm
      rw [or_iff_right silent]
    case inr.inl =>
      obtain ⟨r, rest, k, _, ends, lists⟩ := ih (i + 1) (step_goesOn_not_stuck stepped goesOn)
      refine ⟨r.pass i q, by rw [rest, mapNext_next], k + 1, by omega, endsAfter_succ stepped ends rfl rfl, fun m q' => ?_⟩
      rw [exists_leavesStatus_succ_iff stepped, status, pass_passed, List.mem_cons, lists m q', Prod.mk.injEq, Option.some_inj]
      exact or_congr_left (and_congr_right fun _ => ⟨fun same => ⟨same ▸ bad, same.symm⟩, fun h => h.2.symm⟩)
    case inr.inr =>
      exact ⟨_, rfl, 0, by omega, .inr ⟨by omega, q, rfl, bad, status, run_succ stepped 0⟩, listsPassed_zero i s⟩

/-- A run that has done its rounds stops at the next one if the word at `pc` raises and the driver does not go on. -/
theorem runRounds_stops {n : Nat} {s t : State} {w : Word32} {c : IllegalCase} (done : runRounds n 0 s = .next ⟨.stepCount, [], t⟩)
    (ready : t.ready = true) (running : t.halted = false) (valid : ValidAccess t.cfg t.pc 4) (word : t.wordAt t.pc.toNat = w)
    (decoded : decodeWord w = .unimplemented w c) (stops : t.cfg.goOn = false ∨ t.cfg.illegalMode = .strict) (m : Nat) :
    runRounds (n + m + 1) 0 s = .next ⟨.stoppedAtRound n (.illegalInstruction w), [], t.raiseIllegal w⟩ := by
  have stepped := step_of_unimplemented ready running valid word decoded
  rw [afterExecute_raiseIllegal w stops] at stepped
  rw [Nat.add_assoc, runRounds_add n (m + 1) 0 s t done, Nat.zero_add, runRounds_succ stepped,
    goOnOr_stop (raiseIllegal_status t w) (goesOn_raiseIllegal_eq_false w stops)]

/-- Settles O59: the first part is the induction over the rounds, from round 0; in the second the plan names the word and the
address that `pc` still holds after the raise. -/
theorem fetchLoopRunEnds : Obligations.FetchLoopRunEnds := by
  refine ⟨fun n s alive => ?_, fun n m s t w c done ready running valid word decoded stops => ?_⟩
  · obtain ⟨r, done, k, hk, ends, lists⟩ := runRounds_ends n 0 alive
    rw [EndsAfter, Nat.zero_add] at ends
    refine ⟨r, done, k, hk, ends, fun j q => (lists j q).trans ?_⟩
    simp only [Nat.zero_add, exists_eq_left', LeavesStatus]
  · refine ⟨_, runRounds_stops done ready running valid word decoded stops m, rfl, rfl, ?_, ?_⟩ <;> simp [RunResult.endedWell]

end Sys2Proof.Proofs.RunEnds
end
